-- ==== Sys2Proof/Word.lean ====
section
/-! DEFINITION. The word types of the hardware: the register byte (R11, R28) and the 3-bit operation
word (R80). Bits are numbered 7 (most significant) down to 0, as R11 and R54 number them. -/

namespace Sys2Proof

/-- A register byte: an 8-bit unsigned value (R11, R28). -/
abbrev Byte := BitVec 8

/-- The operation word `op[2:0]` of format OP3 (R80). -/
abbrev OpWord := BitVec 3

/-- The 7-bit address of a device on the two-wire bus (R50). -/
abbrev DevAddr := BitVec 7

end Sys2Proof
end

