-- ==== Sys2Proof/Syntax.lean ====
section
/-! DEFINITION. Syntax: the operations of the opcode table (R80), the values on the block's input ports
(R23), and the two kinds of line a caller can write: an operation presented to the block (R88) and a
host pseudo-instruction (R89). -/

namespace Sys2Proof

/-- The register image: the bytes of device registers 0x00..0x07 (R12, R27). Field `k` in this order is
the register at address `k`; `regAt` in Machine/Ops.lean indexes by address. -/
structure Image where
  /-- 0x00: seconds (BCD) and OSC_EN. -/
  seconds : Byte
  /-- 0x01: minutes (BCD). -/
  minutes : Byte
  /-- 0x02: hours (BCD), MODE12 and PM. -/
  hours : Byte
  /-- 0x03: weekday and OSCRUN. -/
  weekday : Byte
  /-- 0x04: day of month (BCD) and two preserved high bits. -/
  day : Byte
  /-- 0x05: month (BCD) and preserved high bits. -/
  month : Byte
  /-- 0x06: year within century (BCD). -/
  year : Byte
  /-- 0x07: control register, EXTOSC in bit 3. -/
  control : Byte
deriving DecidableEq, Repr, Inhabited

/-- CalendarTimestamp (R15), with the port widths of R23 and R24. The year is an unbounded integer (D10);
the hour is the 24-hour form. -/
structure Timestamp where
  year : Int
  month : BitVec 4
  day : BitVec 5
  hour : BitVec 5
  minute : BitVec 6
  second : BitVec 6
deriving DecidableEq, Repr, Inhabited

/-- The clock source: external crystal or external clock input (R15, R23). -/
inductive ClockSource where
  | externalCrystal
  | externalClock
deriving DecidableEq, Repr, Inhabited

/-- ClockConfig (R15): the values of the `cfg_in` and `cfg_out` ports. -/
structure ClockConfig where
  enabled : Bool
  clkSrc : ClockSource
deriving DecidableEq, Repr, Inhabited

/-- The data input ports of the block (R23); the `op` port stands apart. -/
structure Inputs where
  img : Image
  ts : Timestamp
  cfg : ClockConfig
deriving DecidableEq, Repr, Inhabited

/-- The operations, one constructor per row of the opcode table (R80). The operation word has no field
but the code, so no constructor has an argument: every operand is a port (R81). -/
inductive Instr where
  /-- 0b000, decode the time image (R130). -/
  | dect
  /-- 0b001, encode a timestamp into the time image (R160). -/
  | enct
  /-- 0b010, encode a clock configuration (R190). -/
  | cfge
  /-- 0b011, decode the clock configuration (R195). -/
  | cfgd
  /-- 0b100, read the oscillator status (R199). -/
  | oscs
  /-- 0b101, reserved (R85). -/
  | reserved101
  /-- 0b110, reserved (R85). -/
  | reserved110
  /-- 0b111, reserved (R85). -/
  | reserved111
deriving DecidableEq, Repr

/-- The host sequences that perform bus transactions (R211, R212, R213, R215). -/
inductive BusCall where
  | oscRunning
  | now
  | setDatetime (ts : Timestamp)
  | configureClock (cfg : ClockConfig)
deriving DecidableEq, Repr

/-- The host pseudo-instructions (R89, R210). -/
inductive HostCall where
  | new
  | release
  | onBus (c : BusCall)
deriving DecidableEq, Repr

/-- What a caller can ask for: one operation presented to the block with the values of its input ports
(R88), or a host pseudo-instruction (R89). -/
inductive Request where
  | operation (w : OpWord) (inp : Inputs)
  | call (c : HostCall)
deriving DecidableEq, Repr

end Sys2Proof
end

