-- ==== Sys2Proof/Machine/Operands.lean ====
section
/-! DEFINITION. Operands: the bit and BCD field formats of the register bytes (R82, R83), the converters
(R100-R106), calendar validity (R108-R110), and the two directions of the time image (R130, R160) and of
the clock-configuration bits (R190, R195, R199). Pure total functions of the operand values. -/

namespace Sys2Proof.Machine

/-! ### Constants (R9, R31) -/

/-- `CENTURY_BASE` (R9). -/
def centuryBase : Int := 2000
/-- `YEAR_MIN` (R9). -/
def yearMin : Int := 2000
/-- `YEAR_MAX` (R9). -/
def yearMax : Int := 2099

/-- `KEEP_SEC` (R31). -/
def keepSec : Byte := 0x80#8
/-- `KEEP_MIN` (R31). -/
def keepMin : Byte := 0x80#8
/-- `KEEP_HR` (R31): MODE12 is not kept. -/
def keepHr : Byte := 0x80#8
/-- `KEEP_DAY` (R31). -/
def keepDay : Byte := 0xC0#8
/-- `KEEP_MON` (R31). -/
def keepMon : Byte := 0xC0#8
/-- `KEEP_YEAR` (R31). -/
def keepYear : Byte := 0x00#8

/-- `OSC_EN_BIT`, in register 0x00 (R31). -/
def oscEnBit : Nat := 7
/-- `MODE12_BIT`, in register 0x02 (R31). -/
def mode12Bit : Nat := 6
/-- `PM_BIT`, in register 0x02 (R31). -/
def pmBit : Nat := 5
/-- `OSCRUN_BIT`, in register 0x03 (R31). -/
def oscRunBit : Nat := 5
/-- `EXTOSC_BIT`, in register 0x07 (R31, conflict C3). -/
def extOscBit : Nat := 3

/-- `pm_polarity` (R107, D6): the PM bit's value that means PM. PRESUMED: the spec takes 1 = PM from
general knowledge (log entry 2). -/
def pmPolarity : Bool := true

/-! ### Bits and fields (R11) -/

/-- `b[hi:lo]`, the unsigned value of bits `hi` down to `lo` (R11). -/
def bits (b : Byte) (hi lo : Nat) : Nat := (b.extractLsb hi lo).toNat

/-- `b[i]` as a truth value (R11). -/
def bit (b : Byte) (i : Nat) : Bool := b.getLsbD i

/-- The byte `b` with bit `i` replaced by `v`: mask the bit away, then OR the shifted value (R190). -/
def putBit (b : Byte) (i : Nat) (v : Bool) : Byte :=
  (b &&& ~~~(1#8 <<< i)) ||| ((BitVec.ofBool v).setWidth 8 <<< i)

/-! ### BCD to binary (R100-R102) -/

/-- `bcd2bin` (R100): no digit check, non-BCD nibbles count arithmetically (R102). -/
def bcd2bin (tens ones : Nat) : Nat := 10 * tens + ones

/-- `dec_T3`: seconds and minutes (R101). -/
def decT3 (b : Byte) : Nat := bcd2bin (bits b 6 4) (bits b 3 0)
/-- `dec_T2`: hours in 24-hour mode, day of month (R101). -/
def decT2 (b : Byte) : Nat := bcd2bin (bits b 5 4) (bits b 3 0)
/-- `dec_T1`: hours in 12-hour mode, month (R101). -/
def decT1 (b : Byte) : Nat := bcd2bin (bits b 4 4) (bits b 3 0)
/-- `dec_T4`: year within century (R101). -/
def decT4 (b : Byte) : Nat := bcd2bin (bits b 7 4) (bits b 3 0)

/-! ### Binary to BCD (R103) -/

/-- `bin2bcd` (R103), for `v` in 0..99. -/
def bin2bcd (v : Nat) : Byte := BitVec.ofNat 8 (((v / 10) <<< 4) ||| (v % 10))

/-- Mask-then-OR: the kept bits of the old byte with the BCD digits of `v` (R164-R171). -/
def merge (keep old : Byte) (v : Nat) : Byte := (old &&& keep) ||| bin2bcd v

/-! ### Hours (R106, R133-R135) -/

/-- `conv12` (R106). -/
def conv12 (h12 : Nat) (pm : Bool) : Nat :=
  if pm ∧ h12 ≠ 12 then h12 + 12
  else if ¬pm ∧ h12 = 12 then 0
  else h12

/-- `dec_hour12` (R134), with the polarity of R107. -/
def decHour12 (b : Byte) : Nat := conv12 (decT1 b) (bit b pmBit == pmPolarity)

/-- `dec_hour24` (R135). -/
def decHour24 (b : Byte) : Nat := decT2 b

/-- `dec_hour` (R133): MODE12 selects the layout. -/
def decHour (b : Byte) : Nat := if bit b mode12Bit then decHour12 b else decHour24 b

/-! ### Calendar validity (R108-R110) -/

/-- `leap` (R110): the Gregorian rule. PRESUMED by the spec from general knowledge (log entry 3). -/
def leap (y : Int) : Bool := (y % 4 == 0 && y % 100 != 0) || y % 400 == 0

/-- `days_in_month` for `1 ≤ mo ≤ 12` (R109); 0 outside that domain, where R108 never asks.
PRESUMED by the spec from general knowledge (log entry 3). -/
def daysInMonth (y : Int) (mo : Nat) : Nat :=
  match mo with
  | 1 => 31
  | 2 => if leap y then 29 else 28
  | 3 => 31
  | 4 => 30
  | 5 => 31
  | 6 => 30
  | 7 => 31
  | 8 => 31
  | 9 => 30
  | 10 => 31
  | 11 => 30
  | 12 => 31
  | _ => 0

/-- `valid` (R108). -/
def valid (y : Int) (mo d h mi s : Nat) : Bool :=
  1 ≤ mo && mo ≤ 12 && 1 ≤ d && d ≤ daysInMonth y mo && h ≤ 23 && mi ≤ 59 && s ≤ 59

/-- The precondition on a timestamp: a valid date and time (R111, R161); it does not bound the year. -/
def tsValid (t : Timestamp) : Bool :=
  valid t.year t.month.toNat t.day.toNat t.hour.toNat t.minute.toNat t.second.toNat

/-- The encodable years (R162), on the full integer. -/
def yearInRange (y : Int) : Bool := yearMin ≤ y && y ≤ yearMax

/-! ### The time image (R130, R160) -/

/-- The decoded timestamp of a time image, or none where the decoded fields are not a valid date and
time (R130-R140). Register 0x03 and register 0x07 are not read. -/
def decodeTime (b : Image) : Option Timestamp :=
  let s := decT3 b.seconds
  let mi := decT3 b.minutes
  let h := decHour b.hours
  let d := decT2 b.day
  let mo := decT1 b.month
  let y := centuryBase + decT4 b.year
  if valid y mo d h mi s then
    some { year := y, month := BitVec.ofNat 4 mo, day := BitVec.ofNat 5 d, hour := BitVec.ofNat 5 h,
           minute := BitVec.ofNat 6 mi, second := BitVec.ofNat 6 s }
  else none

/-- The image with a timestamp merged in (R164-R172); registers 0x03 and 0x07 are copied. -/
def encodeTime (t : Timestamp) (b : Image) : Image :=
  { b with
    seconds := merge keepSec b.seconds t.second.toNat
    minutes := merge keepMin b.minutes t.minute.toNat
    hours := merge keepHr b.hours t.hour.toNat
    day := merge keepDay b.day t.day.toNat
    month := merge keepMon b.month t.month.toNat
    year := merge keepYear b.year (t.year - centuryBase).toNat }

/-! ### The clock-configuration bits (R190-R199) -/

/-- The `clk_src` bit of a source: 0 = external crystal, 1 = external clock input (R23, R192). -/
def clkSrcBit : ClockSource → Bool
  | .externalCrystal => false
  | .externalClock => true

/-- The source a `clk_src` bit stands for (R197). -/
def clkSrcOf (v : Bool) : ClockSource := if v then .externalClock else .externalCrystal

/-- The image with a clock configuration merged in (R191-R193). -/
def encodeConfig (c : ClockConfig) (b : Image) : Image :=
  { b with
    seconds := putBit b.seconds oscEnBit c.enabled
    control := putBit b.control extOscBit (clkSrcBit c.clkSrc) }

/-- The clock configuration an image holds (R196, R197). -/
def decodeConfig (b : Image) : ClockConfig :=
  { enabled := bit b.seconds oscEnBit, clkSrc := clkSrcOf (bit b.control extOscBit) }

/-- The oscillator-running bit of an image (R199). -/
def oscRunning (b : Image) : Bool := bit b.weekday oscRunBit

end Sys2Proof.Machine
end

