-- ==== Sys2Proof/Config.lean ====
section
/-! DEFINITION. Config: what the spec leaves OPEN (R10), as constants with no body, and the form of the
moves that the block's environment makes. Nothing in Lean can evaluate a constant of this file, so a
statement that holds in this model holds for every value the parameter may take. -/

namespace Sys2Proof

/-- OPEN parameter behind the type `TransportError` (R58, R10, U9): which codes stand for an error of the
transport, beside the code 0. -/
opaque Config.transportErrorCode : Nat → Bool

/-- The transport's error value, opaque to this driver (R58, R242). Its type is a parameter: which values it
has is the constant `Config.transportErrorCode`, with no body, so nothing in Lean can tell how many errors
there are or what sets two of them apart. Only that there is one is known, since a transaction can fail
(R219). Every type whose values can be written down and compared, as State asks, has this form (log
entry 6). -/
structure TransportError where
  code : Nat
  admitted : code = 0 ∨ Config.transportErrorCode code = true
deriving DecidableEq, Repr

/-- One move of the environment, made in every step: what the peripheral does to its registers meanwhile
and, where the step is a bus transaction, how the transaction ends. -/
structure EnvMove where
  /-- The peripheral's own changes, each a mask of bits it flips (R32, R281). In a bus transaction one comes
  before each byte moved and those left over after the last; in any other step all come at its start. -/
  changes : List Image
  /-- How a transaction ends: completed, or failed with an error (R219). -/
  failure : Option TransportError
  /-- Which registers a failed write updated, bit `a` for register `a` (R60, D21). -/
  updated : Byte
deriving DecidableEq, Repr, Inhabited

/-- OPEN parameter `range_check_before_read` (R214, D14). -/
opaque Config.rangeCheckBeforeRead : Bool

/-- OPEN parameter `device_initial_image`: registers 0x00..0x07 at power-up (R35, D20). -/
opaque Config.deviceInitialImage : Image

/-- OPEN parameter `device_volatile_mask`: the bits the peripheral may change on its own (R32, D22). -/
opaque Config.deviceVolatileMask : Image

/-- FREE VALUE: the environment's move at the `n`-th step, where `State.env` scripts none (log entry 5). -/
opaque Config.freeMove : Nat → EnvMove

/-- FREE VALUE: the `img_in` bytes that a host sequence does not determine ("any", R213; "other img_in
bytes not read", R211), at the `n`-th step (log entry 7). -/
opaque Config.freeImage : Nat → Image

end Sys2Proof
end

