-- ==== Sys2Proof/Machine/State.lean ====
section
/-! DEFINITION. State: everything the spec gives the machine as plain data. The codec block itself holds no
state (R20): what is kept for it are the values on its input ports (R23) and on its output ports (R24).
The peripheral's register bank is the only persistent state of the system (R21, R29). The session holds
only the bus handle (R36); a host sequence under way is held as the phase it has reached (R210-R215). -/

namespace Sys2Proof.Machine

/-- The errors of the block (R241). -/
inductive BlockError where
  /-- E_DECODE: the decoded fields are not a valid date and time (R140). -/
  | decode
  /-- E_RANGE: the year to encode is outside 2000..2099 (R162). -/
  | range
  /-- E_ILLEGAL_OP: a reserved operation code (R85). -/
  | illegalOp
deriving DecidableEq, Repr

/-- The output ports after the last evaluation: one case per operation and outcome, never a record with
default values (R24, R25). A port that the case does not carry is undriven. -/
inductive Outputs where
  /-- No evaluation has completed (R34). -/
  | undriven
  /-- DECT, status OK: `ts_out` is driven. -/
  | dect (ts : Timestamp)
  /-- ENCT, status OK: `img_out` is driven. -/
  | enct (img : Image)
  /-- CFGE, status OK: `img_out` is driven. -/
  | cfge (img : Image)
  /-- CFGD, status OK: `cfg_out` is driven. -/
  | cfgd (cfg : ClockConfig)
  /-- OSCS, status OK: `osc_run` is driven. -/
  | oscs (run : Bool)
  /-- An error: its status and no data output (R240). -/
  | error (e : BlockError)
deriving DecidableEq, Repr

/-- The output ports (R24), as named by a refusal to read one that is undriven (R25). -/
inductive Port where
  | status
  | imgOut
  | tsOut
  | cfgOut
  | oscRun
deriving DecidableEq, Repr

/-- Who owns the bus handle: NEW takes it into the session, RELEASE returns it (R36, R210). -/
inductive Owner where
  | caller
  | session
deriving DecidableEq, Repr

/-- A call of the transport interface (R58). -/
inductive BusRequest where
  /-- `write_read(address, request_bytes)` for `n` result bytes (R56). -/
  | writeRead (dev : DevAddr) (request : List Byte) (n : Nat)
  /-- `write(address, bytes)`; the bytes are the frame (R55, R57). -/
  | write (dev : DevAddr) (frame : List Byte)
deriving DecidableEq, Repr

/-- How a `write_read` ends (R58). -/
inductive ReadReply where
  | data (v : List Byte)
  | failed (e : TransportError)
deriving DecidableEq, Repr

/-- How a `write` ends (R58). -/
inductive WriteReply where
  | done
  | failed (e : TransportError)
deriving DecidableEq, Repr

/-- How far the host's current sequence has come; which agent moves next follows from it (R211-R215). -/
inductive Phase where
  /-- No host sequence is under way. -/
  | idle
  /-- The sequence's `MemRead` is with the transport. -/
  | reading (c : BusCall)
  /-- The transport has answered the `MemRead`; the host has not looked yet. -/
  | readDone (c : BusCall) (r : ReadReply)
  /-- The codec operation has been presented to the block; the host waits for its outputs. -/
  | evaluating (c : BusCall)
  /-- `MemWrite` of these bytes from register 0x00 is with the transport. -/
  | writing (v : List Byte)
  /-- The transport has answered the `MemWrite`; the host has not looked yet. -/
  | writeDone (r : WriteReply)
deriving DecidableEq, Repr

/-- The value a host sequence returns to its caller on success (R210-R215). -/
inductive Value where
  /-- NEW returns the session. -/
  | session
  /-- RELEASE returns the bus handle. -/
  | busHandle
  /-- OSC_RUNNING. -/
  | running (b : Bool)
  /-- NOW. -/
  | timestamp (ts : Timestamp)
  /-- SET_DATETIME and CONFIGURE_CLOCK. -/
  | unit
deriving DecidableEq, Repr

/-- The result of a host sequence (R217). -/
inductive CallResult where
  | ok (v : Value)
  | transport (e : TransportError)
  | domainDecode
  | domainRange
deriving DecidableEq, Repr

/-- Reasons for which the machine stops with a fault. There is none: no behaviour of this hardware is
stuck (spec/93), and every error is an ordinary result on `status` (R240, R141), which is a next state.
Nobody raises one; the type is empty, which is safe. -/
inductive Fault where
deriving DecidableEq, Repr

/-- Reasons for which a step has no meaning. -/
inductive Refusal where
  /-- `exec` raises it for an instruction that has no meaning yet. Safe. No arm raises it now. -/
  | notModelled (mnemonic : String)
  /-- ENCT, and a SET_DATETIME call, raise it on a timestamp that is not a valid date and time: the spec
  refuses that input (R111, R161, R244). Safe. -/
  | invalidTimestamp
  /-- The host raises it when it reads an output port that the last evaluation did not drive (R25). Safe. -/
  | undrivenPort (p : Port)
  /-- The transport raises it on a transaction other than those the host issues (R59, R62). Safe. -/
  | undefinedTransaction
  /-- The host raises it on a call that needs a session when the caller still owns the bus handle (R36).
  Safe. -/
  | noSession
  /-- The host raises it on NEW while a session owns the bus handle: two sessions on one bus are outside
  the spec (R287). Safe. -/
  | secondSession
deriving DecidableEq, Repr

/-- The machine: the block's ports, the peripheral's bank, the session, and the environment. -/
structure State where
  /-- The `op` port: the operation word presented to the block, if one is (R23). -/
  op : Option OpWord
  /-- The data input ports (R23). -/
  inp : Inputs
  /-- The output ports (R24). -/
  out : Outputs
  /-- The peripheral's registers 0x00..0x07 (R27, R29). -/
  bank : Image
  /-- The session's state: who owns the bus handle (R36). -/
  handle : Owner
  /-- How far the host sequence under way has come. -/
  phase : Phase
  /-- What callers have asked for and the host has not begun, oldest first (R64, R218). -/
  pending : List Request
  /-- What the finished host sequences returned to their callers, newest first (R217). -/
  returned : List CallResult
  /-- The bus transactions of the current or last request, oldest first (R220). The model's own record. -/
  transactions : List BusRequest
  /-- The environment's next moves, one for each step; where the list ends, `Config.freeMove` goes on. The
  model's own. -/
  env : List EnvMove
  /-- How many steps have drawn on the free values. The model's own. -/
  draws : Nat
deriving DecidableEq, Repr

/-- The time 2000-01-01 00:00:00, standing on `ts_in` at reset (log entry 1). -/
def resetTimestamp : Timestamp :=
  { year := 2000, month := 1#4, day := 1#5, hour := 0#5, minute := 0#6, second := 0#6 }

/-- An image of eight zero bytes, standing on `img_in` at reset (log entry 1). It is not the bank. -/
def zeroImage : Image :=
  { seconds := 0#8, minutes := 0#8, hours := 0#8, weekday := 0#8, day := 0#8, month := 0#8, year := 0#8, control := 0#8 }

/-- The machine after reset (R270): outputs undriven, the bank at the OPEN `device_initial_image`, the bus
handle still with the caller, nothing presented and nothing asked for. The values on the input ports
are a DESIGN CHOICE (log entry 1): the environment drives them, and the spec gives none. -/
def State.reset : State :=
  { op := none
    inp := { img := zeroImage, ts := resetTimestamp, cfg := { enabled := false, clkSrc := .externalCrystal } }
    out := .undriven
    bank := Config.deviceInitialImage
    handle := .caller
    phase := .idle
    pending := []
    returned := []
    transactions := []
    env := []
    draws := 0 }

end Sys2Proof.Machine
end

