-- ==== Sys2Proof/Machine/Flags.lean ====
section
/-! DEFINITION. Flags: the block has no condition codes (R22); its one flag-like output is `status` (R241).
This file gives the status code of an outcome and what each data port carries after it (R24, R25). -/

namespace Sys2Proof.Machine

/-- The status code of an error (R241). -/
def errorCode : BlockError → BitVec 2
  | .decode => 1#2
  | .range => 2#2
  | .illegalOp => 3#2

/-- The `status` port: undriven until an evaluation completes, then 0 for OK or the error's code. -/
def readStatus : Outputs → Except Refusal (BitVec 2)
  | .undriven => .error (.undrivenPort .status)
  | .dect _ => .ok 0#2
  | .enct _ => .ok 0#2
  | .cfge _ => .ok 0#2
  | .cfgd _ => .ok 0#2
  | .oscs _ => .ok 0#2
  | .error e => .ok (errorCode e)

/-- The `img_out` port: driven by ENCT and CFGE on OK (R24); reading it otherwise is a refusal (R25). -/
def readImgOut : Outputs → Except Refusal Image
  | .enct img => .ok img
  | .cfge img => .ok img
  | .undriven | .dect _ | .cfgd _ | .oscs _ | .error _ => .error (.undrivenPort .imgOut)

/-- The `ts_out` port: driven by DECT on OK (R24). -/
def readTsOut : Outputs → Except Refusal Timestamp
  | .dect ts => .ok ts
  | .undriven | .enct _ | .cfge _ | .cfgd _ | .oscs _ | .error _ => .error (.undrivenPort .tsOut)

/-- The `cfg_out` port: driven by CFGD (R24). -/
def readCfgOut : Outputs → Except Refusal ClockConfig
  | .cfgd cfg => .ok cfg
  | .undriven | .dect _ | .enct _ | .cfge _ | .oscs _ | .error _ => .error (.undrivenPort .cfgOut)

/-- The `osc_run` port: driven by OSCS (R24). -/
def readOscRun : Outputs → Except Refusal Bool
  | .oscs b => .ok b
  | .undriven | .dect _ | .enct _ | .cfge _ | .cfgd _ | .error _ => .error (.undrivenPort .oscRun)

end Sys2Proof.Machine
end

