-- ==== Sys2Proof/Machine/Ops.lean ====
section
/-! DEFINITION. Ops: the shared operations. How an evaluation ends (`return ok(r)` and `raise E`, R13), the
access to a register by its address (R51, R52), the peripheral's own changes (R32), and the bookkeeping of
a host sequence. There is no trap entry and no return from one (R247, R248): raising an error is an
ordinary end of an evaluation that only drives `status`. -/

namespace Sys2Proof.Machine

/-- The answer of a step or a meaning. -/
abbrev Answer := Host.Outcome State Fault Refusal

/-! ### The end of an evaluation (R13, R240) -/

/-- Drive the output ports; every port not in `o` becomes undriven (R25). -/
def State.drive (s : State) (o : Outputs) : State := { s with out := o }

/-- `return ok(r)`: end with status OK and the listed outputs driven (R13). -/
def returnOk (o : Outputs) (s : State) : Answer := .next (s.drive o)

/-- `raise E`: end with status E and no data output driven; nothing is saved, no mode changes and control
goes nowhere else (R13, R247). The one operation by which an evaluation takes an error. -/
def raise (e : BlockError) (s : State) : Answer := .next (s.drive (.error e))

/-! ### Registers by address (R27, R51) -/

/-- The register at address `a`; none at 0x08 and above, which nothing accesses (R51). -/
def regAt (b : Image) (a : Nat) : Option Byte :=
  match a with
  | 0 => some b.seconds
  | 1 => some b.minutes
  | 2 => some b.hours
  | 3 => some b.weekday
  | 4 => some b.day
  | 5 => some b.month
  | 6 => some b.year
  | 7 => some b.control
  | _ => none

/-- The image with register `a` set to `v`; none at 0x08 and above. -/
def setRegAt (b : Image) (a : Nat) (v : Byte) : Option Image :=
  match a with
  | 0 => some { b with seconds := v }
  | 1 => some { b with minutes := v }
  | 2 => some { b with hours := v }
  | 3 => some { b with weekday := v }
  | 4 => some { b with day := v }
  | 5 => some { b with month := v }
  | 6 => some { b with year := v }
  | 7 => some { b with control := v }
  | _ => none

/-- The eight registers in address order (R53). -/
def regsOf (b : Image) : List Byte :=
  [b.seconds, b.minutes, b.hours, b.weekday, b.day, b.month, b.year, b.control]

/-- The image `base` with the bytes `v` put at addresses `a`, `a+1`, … ; bytes past 0x07 fall away. -/
def placeAt (a : Nat) : List Byte → Image → Image
  | [], base => base
  | x :: v, base => placeAt (a + 1) v ((setRegAt base a x).getD base)

/-! ### The peripheral's own changes (R32, R281) -/

/-- One byte after the peripheral flips the bits of `c` that the mask `m` lets it change. -/
def flipWithin (m c b : Byte) : Byte := b ^^^ (c &&& m)

/-- The bank after one change of the peripheral's own: only bits of `device_volatile_mask` change (R32). -/
def peripheralChange (c b : Image) : Image :=
  { seconds := flipWithin Config.deviceVolatileMask.seconds c.seconds b.seconds
    minutes := flipWithin Config.deviceVolatileMask.minutes c.minutes b.minutes
    hours := flipWithin Config.deviceVolatileMask.hours c.hours b.hours
    weekday := flipWithin Config.deviceVolatileMask.weekday c.weekday b.weekday
    day := flipWithin Config.deviceVolatileMask.day c.day b.day
    month := flipWithin Config.deviceVolatileMask.month c.month b.month
    year := flipWithin Config.deviceVolatileMask.year c.year b.year
    control := flipWithin Config.deviceVolatileMask.control c.control b.control }

/-- The bank after the next change of a list, if the list has one. -/
def changeOnce : List Image → Image → Image
  | [], b => b
  | c :: _, b => peripheralChange c b

/-- The bank after all the changes of a list, in order. -/
def changeAll : List Image → Image → Image
  | [], b => b
  | c :: cs, b => changeAll cs (peripheralChange c b)

/-! ### Free values and the host's bookkeeping -/

/-- The environment's move `k` steps from now: the scripted one, or a free value (log entry 5). -/
def State.moveAt (s : State) (k : Nat) : EnvMove := (s.env[k]?).getD (Config.freeMove (s.draws + k))

/-- The environment's move in this step. -/
def State.nextMove (s : State) : EnvMove := s.moveAt 0

/-- The state with the environment's next move used up. -/
def State.takeMove (s : State) : State := { s with env := s.env.tail, draws := s.draws + 1 }

/-- The block takes the word off the `op` port to evaluate it: an operation is presented once (R22). -/
def State.takeOp (s : State) : State := { s with op := none }

/-- Present an operation with the values of its input ports; the outputs of the operation before are not
kept (R22). -/
def State.present (s : State) (w : OpWord) (inp : Inputs) : State :=
  { s with op := some w, inp := inp, out := .undriven }

/-- The host begins a request: nothing has been sent on the bus for it yet. -/
def State.beginRequest (s : State) (rest : List Request) : State :=
  { s with pending := rest, transactions := [] }

/-- The bank after the peripheral's own changes. -/
def State.withBank (s : State) (b : Image) : State := { s with bank := b }

/-- The peripheral makes its own changes, whoever else moves in the step: it may do so at any time (R32, R64). -/
def State.passTime (s : State) : State := s.takeMove.withBank (changeAll s.nextMove.changes s.bank)

/-- The sequence under way reaches another phase. -/
def State.withPhase (s : State) (p : Phase) : State := { s with phase := p }

/-- The bus handle changes hands (R210). -/
def State.withHandle (s : State) (o : Owner) : State := { s with handle := o }

/-- The bank after a transaction, with the transaction recorded. -/
def State.afterTransaction (s : State) (req : BusRequest) (bank : Image) : State :=
  { s with bank := bank, transactions := s.transactions ++ [req] }

/-- The sequence under way ends and returns its result to the caller (R217). -/
def State.returnCall (s : State) (r : CallResult) : State :=
  { s with phase := .idle, returned := r :: s.returned }

end Sys2Proof.Machine
end

