-- ==== Sys2Proof/Machine/Clock.lean ====
section
/-! DEFINITION. Clock: the meanings of CFGE (R190), CFGD (R195) and OSCS (R199). None of them can fail. -/

namespace Sys2Proof.Machine

/-- CFGE (R190): merge the clock configuration into the image. -/
def execCfge (s : State) : Answer := returnOk (.cfge (encodeConfig s.inp.cfg s.inp.img)) s

/-- CFGD (R195): the clock configuration the image holds. -/
def execCfgd (s : State) : Answer := returnOk (.cfgd (decodeConfig s.inp.img)) s

/-- OSCS (R199): the oscillator-running bit of the image. -/
def execOscs (s : State) : Answer := returnOk (.oscs (oscRunning s.inp.img)) s

end Sys2Proof.Machine
end

