-- ==== Sys2Proof/Machine/Reserved.lean ====
section
/-! DEFINITION. Reserved: the meanings of the three reserved operation codes (R85). Each reads no input port
and ends with E_ILLEGAL_OP, an ordinary result after which the next operation is evaluated (R240). -/

namespace Sys2Proof.Machine

/-- The code 0b101 (R85). -/
def execReserved101 (s : State) : Answer := raise .illegalOp s

/-- The code 0b110 (R85). -/
def execReserved110 (s : State) : Answer := raise .illegalOp s

/-- The code 0b111 (R85). -/
def execReserved111 (s : State) : Answer := raise .illegalOp s

end Sys2Proof.Machine
end

