-- ==== Sys2Proof/Machine/Time.lean ====
section
/-! DEFINITION. Time: the meanings of DECT (R130) and ENCT (R160). -/

namespace Sys2Proof.Machine

/-- DECT (R130): decode the time image on `img_in`, or end with E_DECODE (R140, R141). -/
def execDect (s : State) : Answer :=
  match decodeTime s.inp.img with
  | some ts => returnOk (.dect ts) s
  | none => raise .decode s

/-- ENCT (R160): a timestamp that is not a valid date and time is refused, before any other check (R161,
R245); a year outside 2000..2099 ends with E_RANGE (R162); otherwise the timestamp is merged into the
image (R164-R172). -/
def execEnct (s : State) : Answer :=
  if tsValid s.inp.ts then
    if yearInRange s.inp.ts.year then returnOk (.enct (encodeTime s.inp.ts s.inp.img)) s
    else raise .range s
  else .refused .invalidTimestamp

end Sys2Proof.Machine
end

