-- ==== Sys2Proof/Machine/Dispatch.lean ====
section
/-! DEFINITION. Dispatch: one arm per operation, each one direct call of its meaning. -/

namespace Sys2Proof.Machine

def exec (i : Instr) (s : State) : Host.Outcome State Fault Refusal :=
  match i with
  | .dect => Sys2Proof.Machine.execDect s
  | .enct => Sys2Proof.Machine.execEnct s
  | .cfge => Sys2Proof.Machine.execCfge s
  | .cfgd => Sys2Proof.Machine.execCfgd s
  | .oscs => Sys2Proof.Machine.execOscs s
  | .reserved101 => Sys2Proof.Machine.execReserved101 s
  | .reserved110 => Sys2Proof.Machine.execReserved110 s
  | .reserved111 => Sys2Proof.Machine.execReserved111 s

end Sys2Proof.Machine
end

