-- ==== Sys2Proof/Decode.lean ====
section
/-! DEFINITION. Decode: from the operation word to the operation and back (R80, R85, R87). The word is
three bits, all of them the code; every one of the eight codes has a row of the table, so decoding a
word never fails. Where a word is laid out in memory bytes (the host's numbering), it is the low three
bits of one byte. -/

namespace Sys2Proof

/-- Why a byte list holds no operation word. -/
inductive DecodeError where
  /-- There is no byte left to read a word from. -/
  | noWord
deriving DecidableEq, Repr

/-- The operation a word selects, bit by bit as the table of R80 writes it (`op[2]`, `op[1]`, `op[0]`). -/
def decodeOp (w : OpWord) : Instr :=
  match w.getLsbD 2, w.getLsbD 1, w.getLsbD 0 with
  | false, false, false => .dect
  | false, false, true => .enct
  | false, true, false => .cfge
  | false, true, true => .cfgd
  | true, false, false => .oscs
  | true, false, true => .reserved101
  | true, true, false => .reserved110
  | true, true, true => .reserved111

/-- The operation at the head of a byte list, with the bytes after it. A decoder reads `op[2:0]` and
nothing else (R87), so bits 7:3 of the byte are no part of the word (log entry 8). -/
def decodeBytes : List Byte → Except DecodeError (Instr × List Byte)
  | [] => .error .noWord
  | b :: rest => .ok (decodeOp (b.setWidth 3), rest)

/-- The bytes of a word `w` of `nbits` bits: bit 0 is the least significant bit of the first byte. -/
def tableBytes (nbits w : Nat) : List Byte := if nbits < 3 then [] else [BitVec.ofNat 8 w]

/-- The operation read from a word numbered as the opcode table numbers it. -/
def decodeTableWord (nbits w : Nat) : Option Instr :=
  match decodeBytes (tableBytes nbits w) with
  | .ok (i, _) => some i
  | .error _ => none

/-- The operation word of an operation (R80); the reserved codes are words too (R85). -/
def encode : Instr → OpWord
  | .dect => 0b000#3
  | .enct => 0b001#3
  | .cfge => 0b010#3
  | .cfgd => 0b011#3
  | .oscs => 0b100#3
  | .reserved101 => 0b101#3
  | .reserved110 => 0b110#3
  | .reserved111 => 0b111#3

/-- The byte that carries an operation's word. -/
def encodeBytes (i : Instr) : List Byte := [(encode i).setWidth 8]

end Sys2Proof
end

