-- ==== Sys2Proof/Machine/Bus.lean ====
section
/-! DEFINITION. Bus: the transport interface the host consumes and the peripheral behind it (R50-R62). The
bus protocol itself is out of scope (R8); what is modelled is what `write_read` and `write` do to the
peripheral's bank and what they answer (R56-R58, R60, R61), with the peripheral free to change its
volatile bits before, between and after the bytes of a transaction (R64, R281). -/

namespace Sys2Proof.Machine

/-- `DEV_ADDR` (R9, R50). -/
def devAddr : DevAddr := 0b1101111#7

/-- The transactions of R59 that read: pointer 0x03 for one byte, pointer 0x00 for seven or eight. -/
def readAdmitted (dev : DevAddr) (request : List Byte) (n : Nat) : Bool :=
  dev == devAddr && ((request == [0x03#8] && n == 1) || (request == [0x00#8] && (n == 7 || n == 8)))

/-- The transactions of R59 that write: an 8- or 9-byte frame whose first byte is the pointer 0x00. -/
def writeAdmitted (dev : DevAddr) (frame : List Byte) : Bool :=
  dev == devAddr && frame.head? == some 0x00#8 && (frame.length == 8 || frame.length == 9)

/-- Read `n` registers from address `a` upward (R52), one change of the peripheral's own before each and the
rest of its changes after the last; the bank changes in no other way (R61). None past register 0x07. -/
def readBurst (a : Nat) : Nat → List Image → Image → Option (List Byte × Image)
  | 0, cs, b => some ([], changeAll cs b)
  | n + 1, cs, b =>
    match regAt (changeOnce cs b) a, readBurst (a + 1) n cs.tail (changeOnce cs b) with
    | some x, some (v, b') => some (x :: v, b')
    | _, _ => none

/-- Write the bytes to the registers from address `a` upward (R52), but only those registers whose bit of
`sel` is set; one change of the peripheral's own before each and the rest after the last. None past
register 0x07. -/
def writeBurst (sel : Byte) (a : Nat) : List Byte → List Image → Image → Option Image
  | [], cs, b => some (changeAll cs b)
  | x :: v, cs, b =>
    match setRegAt (changeOnce cs b) a x with
    | some b' => writeBurst sel (a + 1) v cs.tail (if bit sel a then b' else changeOnce cs b)
    | none => none

/-- Which registers of the frame a `write` updates: all of them when it completes, any subset when it fails
(R60). -/
def updatedBy (m : EnvMove) : Byte :=
  match m.failure with
  | none => 0xFF#8
  | some _ => m.updated

/-- `write_read(address, request_bytes)` (R56, R58) under the environment's move `m`: the reply and the bank
after. None for a transaction other than those of R59, which has no meaning (R62). -/
def busWriteRead (dev : DevAddr) (request : List Byte) (n : Nat) (m : EnvMove) (bank : Image) :
    Option (ReadReply × Image) :=
  if readAdmitted dev request n then
    match request with
    | [a] =>
      match readBurst a.toNat n m.changes bank with
      | some (v, bank') =>
        match m.failure with
        | none => some (.data v, bank')
        | some e => some (.failed e, bank')
      | none => none
    | _ => none
  else none

/-- `write(address, bytes)` (R57, R58) under the environment's move `m`: the reply and the bank after. The
frame's first byte is the register pointer, the others go to the registers from there on (R55). -/
def busWrite (dev : DevAddr) (frame : List Byte) (m : EnvMove) (bank : Image) : Option (WriteReply × Image) :=
  if writeAdmitted dev frame then
    match frame with
    | a :: v =>
      match writeBurst (updatedBy m) a.toNat v m.changes bank with
      | some bank' =>
        match m.failure with
        | none => some (.done, bank')
        | some e => some (.failed e, bank')
      | none => none
    | [] => none
  else none

/-- The write frame of `MemWrite(start, n, v)` (R55): the pointer, then the register bytes. -/
def writeFrame (start : Byte) (v : List Byte) : List Byte := start :: v

/-- `MemRead(a, n)` (R56): the transport call on the fixed device address, one move of the environment, the
transaction recorded, and the reply handed to the phase `k` makes of it. -/
def memRead (a : Byte) (n : Nat) (c : BusCall) (s : State) : Answer :=
  match busWriteRead devAddr [a] n s.nextMove s.bank with
  | some (r, bank) =>
    .next ((s.takeMove.afterTransaction (.writeRead devAddr [a] n) bank).withPhase (.readDone c r))
  | none => .refused .undefinedTransaction

/-- `MemWrite(a, n, v)` with `v` of `n` bytes (R57). -/
def memWrite (a : Byte) (v : List Byte) (s : State) : Answer :=
  match busWrite devAddr (writeFrame a v) s.nextMove s.bank with
  | some (r, bank) =>
    .next ((s.takeMove.afterTransaction (.write devAddr (writeFrame a v)) bank).withPhase (.writeDone r))
  | none => .refused .undefinedTransaction

end Sys2Proof.Machine
end

