-- ==== Sys2Proof/Machine/Session.lean ====
section
/-! DEFINITION. Session: the host, that is the transport session (R210-R221). One move of the host is one
step of the machine: it begins a request, lets the transport perform the transaction it issued, presents
the codec operation, or takes the block's outputs and goes on. The host never alters an image between the
read, the codec and the write (R221). -/

namespace Sys2Proof.Machine

/-- Where a sequence's `MemRead` starts and how many bytes it reads (R59). -/
def readSpan : BusCall → Byte × Nat
  | .oscRunning => (0x03#8, 1)
  | .now => (0x00#8, 7)
  | .setDatetime _ => (0x00#8, 7)
  | .configureClock _ => (0x00#8, 8)

/-- The operation a sequence presents to the block (R89). -/
def operationOf : BusCall → Instr
  | .oscRunning => .oscs
  | .now => .dect
  | .setDatetime _ => .enct
  | .configureClock _ => .cfge

/-- The input ports a sequence presents, given the bytes it read (R211-R215): the bytes at their register
addresses, over the image `rest` for the bytes that the sequence leaves open. A data port the operation
does not read keeps what was on it. -/
def inputsOf (c : BusCall) (v : List Byte) (rest : Image) (old : Inputs) : Inputs :=
  match c with
  | .oscRunning => { old with img := placeAt 0x03 v rest }
  | .now => { old with img := placeAt 0x00 v rest }
  | .setDatetime ts => { old with img := placeAt 0x00 v rest, ts := ts }
  | .configureClock cfg => { old with img := placeAt 0x00 v rest, cfg := cfg }

/-- The host presents the operation of its sequence on the bytes read; the open bytes of `img_in` are a
free value (log entry 7). -/
def presentFor (c : BusCall) (v : List Byte) (s : State) : State :=
  (s.present (encode (operationOf c))
    (inputsOf c v (Config.freeImage s.draws) s.inp)).withPhase (.evaluating c)

/-- The host reads a port to go on with, or is refused if the port is undriven (R25). -/
def usePort {α : Type} (p : Except Refusal α) (k : α → State) : Answer :=
  match p with
  | .ok x => .next (k x)
  | .error r => .refused r

/-- The host takes the block's outputs and goes on with the sequence: OSC_RUNNING and NOW return (R211,
R212); SET_DATETIME and CONFIGURE_CLOCK issue their write (R213, R215). E_DECODE and E_RANGE become the
Domain errors (R243), and no write follows E_RANGE. -/
def collect (c : BusCall) (s : State) : Answer :=
  match c with
  | .oscRunning => usePort (readOscRun s.out) fun b => s.returnCall (.ok (.running b))
  | .now =>
    if s.out = .error .decode then .next (s.returnCall .domainDecode)
    else usePort (readTsOut s.out) fun ts => s.returnCall (.ok (.timestamp ts))
  | .setDatetime _ =>
    if s.out = .error .range then .next (s.returnCall .domainRange)
    else usePort (readImgOut s.out) fun img => s.withPhase (.writing ((regsOf img).take 7))
  | .configureClock _ => usePort (readImgOut s.out) fun img => s.withPhase (.writing (regsOf img))

/-- Begin a sequence that uses the bus. SET_DATETIME needs a valid timestamp (R213) and, under the OPEN
parameter `range_check_before_read`, checks the year before any transaction (R214). -/
def beginBusCall (c : BusCall) (s : State) : Answer :=
  match c with
  | .oscRunning => .next (s.withPhase (.reading c))
  | .now => .next (s.withPhase (.reading c))
  | .setDatetime ts =>
    if tsValid ts then
      if !yearInRange ts.year && Config.rangeCheckBeforeRead then .next (s.returnCall .domainRange)
      else .next (s.withPhase (.reading c))
    else .refused .invalidTimestamp
  | .configureClock _ => .next (s.withPhase (.reading c))

/-- Begin a pseudo-instruction. NEW takes the bus handle and RELEASE returns it, with no bus transaction
(R210); the others need the session to own it (R36). -/
def beginCall (c : HostCall) (s : State) : Answer :=
  match c, s.handle with
  | .new, .caller => .next ((s.withHandle .session).returnCall (.ok .session))
  | .new, .session => .refused .secondSession
  | .release, .session => .next ((s.withHandle .caller).returnCall (.ok .busHandle))
  | .release, .caller => .refused .noSession
  | .onBus c, .session => beginBusCall c s
  | .onBus _, .caller => .refused .noSession

/-- Begin a caller's request: present its operation to the block, or start its pseudo-instruction. -/
def beginRequest (r : Request) (s : State) : Answer :=
  match r with
  | .operation w inp => .next (s.present w inp)
  | .call c => beginCall c s

/-- One move of the host and what it has on the bus; where the host has nothing to do, only the peripheral
moves. The peripheral makes its own changes in every case: between the bytes of a transaction (`memRead`,
`memWrite`), or before a move of the host that uses no bus (R32). A transport error ends the sequence at
once and goes unchanged to the caller (R216). -/
def hostStep (s : State) : Answer :=
  match s.phase with
  | .idle =>
    match s.pending with
    | [] => .next s.passTime
    | r :: rest => beginRequest r (s.passTime.beginRequest rest)
  | .reading c => memRead (readSpan c).1 (readSpan c).2 c s
  | .readDone c (.data v) => .next (presentFor c v s.passTime)
  | .readDone _ (.failed e) => .next (s.passTime.returnCall (.transport e))
  | .evaluating c => collect c s.passTime
  | .writing v => memWrite 0x00#8 v s
  | .writeDone .done => .next (s.passTime.returnCall (.ok .unit))
  | .writeDone (.failed e) => .next (s.passTime.returnCall (.transport e))

end Sys2Proof.Machine
end

