-- ==== Sys2Proof/Machine/Step.lean ====
section
/-! DEFINITION. Step: one step of the machine. When an operation word is on the `op` port the block
evaluates it, as one atomic step (R289); otherwise the host moves. In either case the peripheral may change its
volatile bits (R32); an evaluation never looks at them. -/

namespace Sys2Proof.Machine

/-- One step. -/
def step (s : State) : Host.Outcome State Fault Refusal :=
  match s.op with
  | some w => exec (decodeOp w) s.passTime.takeOp
  | none => hostStep s

/-- The state with an instruction word presented on the `op` port, which is where the block takes its next
operation from (log entry 9). -/
def State.withFetchWord (s : State) (nbits w : Nat) : State :=
  { s with op := if nbits < 3 then none else some (BitVec.ofNat 3 w) }

end Sys2Proof.Machine
end

