-- ==== Sys2Proof/WellFormed.lean ====
section
/-! DEFINITION. WellFormed: what a caller may present. The operation word has no operand field (R80), so
every `Instr` is well formed; the one check the spec asks of an operand is that a timestamp is a valid
date and time (R111, R161). -/

namespace Sys2Proof

/-- Every operation is well formed: the word is its code and nothing else (R80, R87). -/
def Instr.wellFormed : Instr → Bool
  | .dect => true
  | .enct => true
  | .cfge => true
  | .cfgd => true
  | .oscs => true
  | .reserved101 => true
  | .reserved110 => true
  | .reserved111 => true

/-- A timestamp operand is well formed when it is a valid date and time (R111). -/
def Timestamp.wellFormed (t : Timestamp) : Bool := Machine.tsValid t

/-- A host sequence is well formed when the timestamp it carries is (R213). -/
def BusCall.wellFormed : BusCall → Bool
  | .oscRunning => true
  | .now => true
  | .setDatetime ts => ts.wellFormed
  | .configureClock _ => true

/-- A pseudo-instruction is well formed when the sequence it starts is (R89). -/
def HostCall.wellFormed : HostCall → Bool
  | .new => true
  | .release => true
  | .onBus c => c.wellFormed

/-- A presented operation is well formed when ENCT's timestamp is a valid date and time; no other
operation has a precondition (R81, R111). -/
def Inputs.wellFormedFor (inp : Inputs) : Instr → Bool
  | .dect => true
  | .enct => inp.ts.wellFormed
  | .cfge => true
  | .cfgd => true
  | .oscs => true
  | .reserved101 => true
  | .reserved110 => true
  | .reserved111 => true

/-- A line of a caller's program is well formed when its operands are (R88, R89). -/
def Request.wellFormed : Request → Bool
  | .operation w inp => inp.wellFormedFor (decodeOp w)
  | .call c => c.wellFormed

end Sys2Proof
end

