-- ==== Sys2Proof/Safety.lean ====
section
/-! DEFINITION. Safety: the words in which the statements speak of runs. What part of the bank the peripheral
cannot change on its own, the invariant that every step keeps, and the states from which a legal program
runs without a refusal. -/

namespace Sys2Proof.Safety

open Sys2Proof.Machine

/-! ### The peripheral's own changes (R32, R281) -/

/-- The bits of the byte `b` outside the mask `m`. -/
def outside (m b : Byte) : Byte := b &&& ~~~m

/-- The bits of a bank outside `device_volatile_mask`: those the peripheral never changes on its own (R32). -/
def stable (b : Image) : Image :=
  { seconds := outside Config.deviceVolatileMask.seconds b.seconds
    minutes := outside Config.deviceVolatileMask.minutes b.minutes
    hours := outside Config.deviceVolatileMask.hours b.hours
    weekday := outside Config.deviceVolatileMask.weekday b.weekday
    day := outside Config.deviceVolatileMask.day b.day
    month := outside Config.deviceVolatileMask.month b.month
    year := outside Config.deviceVolatileMask.year b.year
    control := outside Config.deviceVolatileMask.control b.control }

/-- A move in which the peripheral changes nothing and the transaction completes: the premise under which
the programs of spec/95 run. -/
def quiet : EnvMove := { changes := [], failure := none, updated := 0#8 }

/-- A move in which the peripheral changes nothing and the transaction fails with the error `e`. -/
def failing (e : TransportError) (updated : Byte) : EnvMove :=
  { changes := [], failure := some e, updated := updated }

/-- For the next `n` steps the peripheral changes nothing and every transaction completes. -/
def Calm (n : Nat) (s : State) : Prop := ∀ k, k < n → s.moveAt k = quiet

/-- The machine is between requests, its session is open, and `c` is the next thing asked of it. -/
def Awaits (c : BusCall) (rest : List Request) (s : State) : Prop :=
  s.op = none ∧ s.phase = .idle ∧ s.handle = .session ∧ s.pending = .call (.onBus c) :: rest

/-- `k` steps of the machine. -/
abbrev run (k : Nat) (s : State) : Host.Outcome State Fault Refusal := Sys2Proof.core.run k s

/-! ### The invariant -/

/-- The transactions a request has performed by the time it reaches a phase (R220). -/
def countFits (n : Nat) : Phase → Prop
  | .idle => n ≤ 2
  | .reading _ => n = 0
  | .readDone _ _ => n = 1
  | .evaluating _ => n = 1
  | .writing _ => n = 1
  | .writeDone _ => n = 2

/-- What the driven outputs always satisfy: a decoded timestamp is a valid date and time of the years
2000..2165 (R24, R26), and an encoded image selects 24-hour mode with month bit 5 clear (R163, R170). -/
def outputsFit : Outputs → Prop
  | .dect ts => tsValid ts = true ∧ 2000 ≤ ts.year ∧ ts.year ≤ 2165
  | .enct img => img.hours.getLsbD 6 = false ∧ img.month.getLsbD 5 = false
  | .undriven => True
  | .cfge _ => True
  | .cfgd _ => True
  | .oscs _ => True
  | .error _ => True

/-- The invariant of the machine: a sequence is under way only while the session owns the bus handle (R36),
the bus transactions are counted as R220 says, and the outputs are as R24, R26 and R163 say. -/
structure Invariant (s : State) : Prop where
  sessionOwnsHandle : s.phase ≠ .idle → s.handle = .session
  transactionCount : countFits s.transactions.length s.phase
  outputs : outputsFit s.out

/-! ### Legal programs -/

/-- A legal program for a caller when the bus handle is with `o`: its operands are well formed, sequences on
the bus stand between a NEW and a RELEASE, and no session is opened twice (R36, R111, R287). -/
def legal : Owner → List Request → Bool
  | _, [] => true
  | o, .operation w inp :: rest => (Request.operation w inp).wellFormed && legal o rest
  | .caller, .call .new :: rest => legal .session rest
  | .session, .call .new :: _ => false
  | .session, .call .release :: rest => legal .caller rest
  | .caller, .call .release :: _ => false
  | .session, .call (.onBus c) :: rest => c.wellFormed && legal .session rest
  | .caller, .call (.onBus _) :: _ => false

/-- The outputs are those the sequence `c` waits for. -/
def outputsFor : BusCall → Outputs → Prop
  | .oscRunning, o => ∃ b, o = .oscs b
  | .now, o => (∃ ts, o = .dect ts) ∨ o = .error .decode
  | .setDatetime _, o => (∃ img, o = .enct img) ∨ o = .error .range
  | .configureClock _, o => ∃ img, o = .cfge img

/-- The phase is one that a legal program reaches: the operation presented, or the outputs waited for, are
those of the sequence under way. -/
def phaseFits (s : State) : Prop :=
  match s.phase with
  | .idle => True
  | .reading c => s.op = none ∧ c.wellFormed = true
  | .readDone c _ => s.op = none ∧ c.wellFormed = true
  | .evaluating c => s.op = some (encode (operationOf c)) ∨ (s.op = none ∧ outputsFor c s.out)
  | .writing v => s.op = none ∧ (v.length = 7 ∨ v.length = 8)
  | .writeDone _ => s.op = none

/-- The machine is running a legal program: the operation presented is well formed, the phase is one such a
program reaches, the session owns the handle while a sequence is under way, and the rest of the program
is legal. -/
structure Running (s : State) : Prop where
  presented : ∀ w, s.op = some w → s.inp.wellFormedFor (decodeOp w) = true
  phase : phaseFits s
  sessionOwnsHandle : s.phase ≠ .idle → s.handle = .session
  program : legal s.handle s.pending = true

/-- A safe state: no run from it, however long, ends in a fault or a refusal. -/
def Safe (s : State) : Prop := ∀ k, ∃ t, run k s = .next t

end Sys2Proof.Safety
end

