-- ==== Sys2Proof/Certificates/Slice0/Obligations.lean ====
section
/-! DEFINITION. Obligations: the statements for the provers. Where a rule is the spec's own choice (its
92_eei_decisions.md), its own inference, or general knowledge, the docstring says so. -/

open Sys2Proof Sys2Proof.Machine Sys2Proof.Safety

/-! ### Encoding and the presented operation -/

/-- R80 and R85 (both the spec's own choice, D3 and D16): the eight operation codes select the five
operations and the three reserved ones. -/
def Obligations.OperationCodesSelect : Prop :=
  decodeOp 0b000#3 = .dect ∧ decodeOp 0b001#3 = .enct ∧ decodeOp 0b010#3 = .cfge ∧ decodeOp 0b011#3 = .cfgd ∧
  decodeOp 0b100#3 = .oscs ∧ decodeOp 0b101#3 = .reserved101 ∧ decodeOp 0b110#3 = .reserved110 ∧
  decodeOp 0b111#3 = .reserved111

/-- Decoding the byte of an encoded operation gives the operation back and leaves the bytes after it, and
every operation word is the encoding of what it decodes to. R80 and R87 are the spec's own choice (D3) and
give a word of three bits; that it is carried by one byte is the model's choice (log entry 8). -/
def Obligations.DecodeAndEncodeAgree : Prop :=
  (∀ i rest, decodeBytes (encodeBytes i ++ rest) = .ok (i, rest)) ∧ (∀ w, encode (decodeOp w) = w)

/-- When an operation word is on the `op` port, a step takes it off and runs the operation it decodes to, the
peripheral having made its own changes first; `withFetchWord` presents exactly that word. That the word is
taken off and when in a step the peripheral changes are the model's choices (log entries 12 and 13), as is
`withFetchWord` (log entry 9). -/
def Obligations.StepRunsThePresentedOperation : Prop :=
  (∀ (s : State) (w : OpWord), s.op = some w → step s = exec (decodeOp w) { s.passTime with op := none }) ∧
  (∀ (s : State) (nbits w : Nat), 3 ≤ nbits →
    step (s.withFetchWord nbits w) = exec (decodeOp (BitVec.ofNat 3 w)) { s.passTime with op := none })

/-! ### Converters -/

/-- R100 and R101: each field decoder is ten times its tens field plus its ones field, as a natural number,
whatever stands in the other bits. -/
def Obligations.FieldDecodersAssembleDigits : Prop :=
  (∀ tens ones, bcd2bin tens ones = 10 * tens + ones) ∧
  ∀ b : Byte,
    decT3 b = 10 * (b.toNat / 16 % 8) + b.toNat % 16 ∧
    decT2 b = 10 * (b.toNat / 16 % 4) + b.toNat % 16 ∧
    decT1 b = 10 * (b.toNat / 16 % 2) + b.toNat % 16 ∧
    decT4 b = 10 * (b.toNat / 16) + b.toNat % 16

/-- R103: the tens digit in the high nibble and the ones digit in the low nibble, for every value 0..99. -/
def Obligations.BinaryToBcdPacksDigits : Prop :=
  ∀ v, v ≤ 99 → (bin2bcd v).toNat = 16 * (v / 10) + v % 10

/-- R104 (the spec's own inference): which high bits of a packed value are clear. -/
def Obligations.PackedDigitsLeaveKeptBitsClear : Prop :=
  (∀ v, v ≤ 59 → bin2bcd v &&& 0x80#8 = 0#8) ∧ (∀ v, v ≤ 39 → bin2bcd v &&& 0xC0#8 = 0#8) ∧
  (∀ v, v ≤ 19 → bin2bcd v &&& 0xE0#8 = 0#8)

/-- R105 (the spec's own inference): decoding what was packed gives it back, also when bits outside the field
are set. -/
def Obligations.BcdRoundTripUnderKeptBits : Prop :=
  (∀ (v : Nat) (k : Byte), v ≤ 59 → decT3 ((k &&& 0x80#8) ||| bin2bcd v) = v) ∧
  (∀ (v : Nat) (k : Byte), v ≤ 39 → decT2 ((k &&& 0xC0#8) ||| bin2bcd v) = v) ∧
  (∀ (v : Nat) (k : Byte), v ≤ 19 → decT1 ((k &&& 0xE0#8) ||| bin2bcd v) = v) ∧
  (∀ v : Nat, v ≤ 99 → decT4 (bin2bcd v) = v)

/-- R106: PM and not 12 adds 12; AM and 12 gives 0; everything else is unchanged. -/
def Obligations.TwelveHourConversion : Prop :=
  conv12 12 true = 12 ∧ conv12 12 false = 0 ∧ ∀ h, h ≠ 12 → conv12 h true = h + 12 ∧ conv12 h false = h

/-- R108 with the month lengths of R109 and the leap years of R110, which the spec takes from general
knowledge (D7, log entry 3). -/
def Obligations.ValidDatesAreGregorian : Prop :=
  ∀ (y : Int) (mo d h mi s : Nat), valid y mo d h mi s = true ↔
    1 ≤ mo ∧ mo ≤ 12 ∧ 1 ≤ d ∧ h ≤ 23 ∧ mi ≤ 59 ∧ s ≤ 59 ∧
    d ≤ (if mo = 2 then (if (4 ∣ y ∧ ¬ 100 ∣ y) ∨ 400 ∣ y then 29 else 28)
      else if mo = 4 ∨ mo = 6 ∨ mo = 9 ∨ mo = 11 then 30 else 31)

/-! ### DECT -/

/-- R131, R132, R137 and R138: in either hour mode, an image whose fields form a valid date and time is decoded
to the seconds, minutes, day and month that its digits give, whatever stands in the ignored bits. -/
def Obligations.DectDecodesFieldsInBothModes : Prop :=
  ∀ s : State,
    let b := s.inp.img
    let sec := 10 * (b.seconds.toNat / 16 % 8) + b.seconds.toNat % 16
    let min := 10 * (b.minutes.toNat / 16 % 8) + b.minutes.toNat % 16
    let dy := 10 * (b.day.toNat / 16 % 4) + b.day.toNat % 16
    let mon := 10 * (b.month.toNat / 16 % 2) + b.month.toNat % 16
    valid (2000 + (decT4 b.year : Int)) mon dy (decHour b.hours) min sec = true →
    ∃ ts, exec .dect s = .next { s with out := .dect ts } ∧ ts.second.toNat = sec ∧ ts.minute.toNat = min ∧
      ts.day.toNat = dy ∧ ts.month.toNat = mon

/-- R135, with the other fields as their rules give them: an image in 24-hour mode whose fields form a valid
date and time is decoded to those fields; the hour is its BCD digits with no further conversion, and the
year is 2000 plus the BCD year, with no check of its range (R139, the spec's own choice D8, log entry 10). -/
def Obligations.DectDecodesFieldsInTwentyFourHourMode : Prop :=
  ∀ s : State,
    let b := s.inp.img
    let sec := 10 * (b.seconds.toNat / 16 % 8) + b.seconds.toNat % 16
    let min := 10 * (b.minutes.toNat / 16 % 8) + b.minutes.toNat % 16
    let hr := 10 * (b.hours.toNat / 16 % 4) + b.hours.toNat % 16
    let dy := 10 * (b.day.toNat / 16 % 4) + b.day.toNat % 16
    let mon := 10 * (b.month.toNat / 16 % 2) + b.month.toNat % 16
    let yr : Int := 2000 + (10 * (b.year.toNat / 16) + b.year.toNat % 16 : Nat)
    b.hours.getLsbD 6 = false → valid yr mon dy hr min sec = true →
    ∃ ts, exec .dect s = .next { s with out := .dect ts } ∧ ts.second.toNat = sec ∧ ts.minute.toNat = min ∧
      ts.hour.toNat = hr ∧ ts.day.toNat = dy ∧ ts.month.toNat = mon ∧ ts.year = yr

/-- R134 with the PM polarity of R107, which the spec takes from general knowledge (D6, log entry 2): an
image in 12-hour mode decodes to the 24-hour form of its hour, and to the other fields as in 24-hour mode. -/
def Obligations.DectConvertsTwelveHourMode : Prop :=
  ∀ s : State,
    let b := s.inp.img
    let sec := 10 * (b.seconds.toNat / 16 % 8) + b.seconds.toNat % 16
    let min := 10 * (b.minutes.toNat / 16 % 8) + b.minutes.toNat % 16
    let h12 := 10 * (b.hours.toNat / 16 % 2) + b.hours.toNat % 16
    let hr := if b.hours.getLsbD 5 = true ∧ h12 ≠ 12 then h12 + 12
      else if b.hours.getLsbD 5 = false ∧ h12 = 12 then 0 else h12
    let dy := 10 * (b.day.toNat / 16 % 4) + b.day.toNat % 16
    let mon := 10 * (b.month.toNat / 16 % 2) + b.month.toNat % 16
    let yr : Int := 2000 + (10 * (b.year.toNat / 16) + b.year.toNat % 16 : Nat)
    b.hours.getLsbD 6 = true → valid yr mon dy hr min sec = true →
    ∃ ts, exec .dect s = .next { s with out := .dect ts } ∧ ts.second.toNat = sec ∧ ts.minute.toNat = min ∧
      ts.hour.toNat = hr ∧ ts.day.toNat = dy ∧ ts.month.toNat = mon ∧ ts.year = yr

/-- R140: DECT reports E_DECODE and drives no timestamp exactly when the decoded fields are not a valid date
and time. -/
def Obligations.DectRejectsWhatIsNoDate : Prop :=
  ∀ s : State,
    let b := s.inp.img
    let ok := valid (2000 + (decT4 b.year : Int)) (decT1 b.month) (decT2 b.day) (decHour b.hours)
      (decT3 b.minutes) (decT3 b.seconds)
    (ok = false → exec .dect s = .next { s with out := .error .decode }) ∧
    (ok = true → ∃ ts, exec .dect s = .next { s with out := .dect ts })

/-- R24, R26 and R142: whatever image was decoded, the driven timestamp is a valid date and time in 24-hour
form, in the years 2000..2165. The upper year rests on D8 (log entry 10). -/
def Obligations.DectResultIsCanonical : Prop :=
  ∀ s t ts, exec .dect s = .next t → readTsOut t.out = .ok ts →
    tsValid ts = true ∧ ts.hour.toNat ≤ 23 ∧ 2000 ≤ ts.year ∧ ts.year ≤ 2165

/-- R130's corner cases with R136: OSC_EN, the top bits of minutes and hours, the weekday register, the high
bits of day and month and the control register never affect DECT. -/
def Obligations.DectIgnoresBitsOutsideTheFields : Prop :=
  ∀ (s : State) (a b : Image),
    a.seconds &&& 0x7F#8 = b.seconds &&& 0x7F#8 → a.minutes &&& 0x7F#8 = b.minutes &&& 0x7F#8 →
    a.hours &&& 0x7F#8 = b.hours &&& 0x7F#8 → a.day &&& 0x3F#8 = b.day &&& 0x3F#8 →
    a.month &&& 0x1F#8 = b.month &&& 0x1F#8 → a.year = b.year →
    ∃ o, exec .dect { s with inp := { s.inp with img := a } } =
          .next { s with inp := { s.inp with img := a }, out := o } ∧
         exec .dect { s with inp := { s.inp with img := b } } =
          .next { s with inp := { s.inp with img := b }, out := o }

/-! ### ENCT -/

/-- R164 to R166 and R168 to R172: the registers ENCT writes, for every valid timestamp of 2000..2099 and
every image. The copies of registers 0x03 and 0x07 (R168, R172) are the spec's own choice (D12), as is month
bit 5 (R170, D15). -/
def Obligations.EnctWritesEveryRegister : Prop :=
  ∀ s : State, tsValid s.inp.ts = true → 2000 ≤ s.inp.ts.year → s.inp.ts.year ≤ 2099 →
    let b := s.inp.img
    let t := s.inp.ts
    let bcd := fun v : Nat => BitVec.ofNat 8 (16 * (v / 10) + v % 10)
    let img : Image :=
      { seconds := (b.seconds &&& 0x80#8) ||| bcd t.second.toNat
        minutes := (b.minutes &&& 0x80#8) ||| bcd t.minute.toNat
        hours := (b.hours &&& 0x80#8) ||| bcd t.hour.toNat
        weekday := b.weekday
        day := (b.day &&& 0xC0#8) ||| bcd t.day.toNat
        month := (b.month &&& 0xC0#8) ||| bcd t.month.toNat
        year := bcd (t.year - 2000).toNat
        control := b.control }
    exec .enct s = .next { s with out := .enct img }

/-- R162: a year outside 2000..2099 ends ENCT with E_RANGE, with no output driven and no other effect. -/
def Obligations.EnctRejectsYearOutOfRange : Prop :=
  ∀ s : State, tsValid s.inp.ts = true → (s.inp.ts.year < 2000 ∨ 2099 < s.inp.ts.year) →
    exec .enct s = .next { s with out := .error .range }

/-- R161 and R244 (the spec's own choice, D9): a timestamp that is not a valid date and time is refused,
whatever its year. -/
def Obligations.EnctRefusesInvalidTimestamp : Prop :=
  ∀ s : State, tsValid s.inp.ts = false → exec .enct s = .refused .invalidTimestamp

/-- R174 (the spec's own inference): the bits ENCT preserves, and that every other bit of registers 0x00..0x06
depends on the timestamp alone. -/
def Obligations.EnctPreservesUnrelatedBits : Prop :=
  (∀ s t img, exec .enct s = .next t → readImgOut t.out = .ok img →
    img.seconds &&& 0x80#8 = s.inp.img.seconds &&& 0x80#8 ∧ img.minutes &&& 0x80#8 = s.inp.img.minutes &&& 0x80#8 ∧
    img.hours &&& 0x80#8 = s.inp.img.hours &&& 0x80#8 ∧ img.weekday = s.inp.img.weekday ∧
    img.day &&& 0xC0#8 = s.inp.img.day &&& 0xC0#8 ∧ img.month &&& 0xC0#8 = s.inp.img.month &&& 0xC0#8 ∧
    img.control = s.inp.img.control) ∧
  (∀ s s' t t' img img', exec .enct s = .next t → exec .enct s' = .next t' → s.inp.ts = s'.inp.ts →
    readImgOut t.out = .ok img → readImgOut t'.out = .ok img' →
    img.seconds &&& 0x7F#8 = img'.seconds &&& 0x7F#8 ∧ img.minutes &&& 0x7F#8 = img'.minutes &&& 0x7F#8 ∧
    img.hours &&& 0x7F#8 = img'.hours &&& 0x7F#8 ∧ img.day &&& 0x3F#8 = img'.day &&& 0x3F#8 ∧
    img.month &&& 0x3F#8 = img'.month &&& 0x3F#8 ∧ img.year = img'.year)

/-- R163: ENCT always encodes in 24-hour mode; it never sets the 12-hour bit, so an image in 12-hour mode is
switched to 24-hour mode, and the hour read back is the hour given. -/
def Obligations.EnctSwitchesToTwentyFourHourMode : Prop :=
  ∀ s t img, exec .enct s = .next t → readImgOut t.out = .ok img →
    img.hours.getLsbD 6 = false ∧ decHour img.hours = s.inp.ts.hour.toNat

/-- R173 (the spec's own inference; DOC's round-trip property): for every valid timestamp of 2000..2099 and
every image, DECT of what ENCT drives gives the timestamp back. -/
def Obligations.DectOfEnctIsIdentity : Prop :=
  ∀ s : State, tsValid s.inp.ts = true → 2000 ≤ s.inp.ts.year → s.inp.ts.year ≤ 2099 →
    ∃ t img u, exec .enct s = .next t ∧ readImgOut t.out = .ok img ∧
      exec .dect { t with inp := { t.inp with img := img } } = .next u ∧ readTsOut u.out = .ok s.inp.ts

/-! ### CFGE, CFGD, OSCS -/

/-- R190, R191, R192: CFGE puts the enable bit in register 0x00 bit 7 and the clock-source bit in register
0x07 bit 3, for all four configurations and every image. -/
def Obligations.CfgeWritesTheTwoBits : Prop :=
  ∀ s : State,
    let b := s.inp.img
    let img : Image :=
      { b with
        seconds := (b.seconds &&& 0x7F#8) ||| (if s.inp.cfg.enabled = true then 0x80#8 else 0x00#8)
        control := (b.control &&& 0xF7#8) ||| (if s.inp.cfg.clkSrc = .externalClock then 0x08#8 else 0x00#8) }
    exec .cfge s = .next { s with out := .cfge img }

/-- R193 and R194: every bit other than register 0x00 bit 7 and register 0x07 bit 3 is unchanged; enabled
with the external crystal sets the one and clears the other. -/
def Obligations.CfgeLeavesEveryOtherBit : Prop :=
  ∀ s t img, exec .cfge s = .next t → readImgOut t.out = .ok img →
    (∀ i, i ≠ 7 → img.seconds.getLsbD i = s.inp.img.seconds.getLsbD i) ∧
    (∀ i, i ≠ 3 → img.control.getLsbD i = s.inp.img.control.getLsbD i) ∧
    img.minutes = s.inp.img.minutes ∧ img.hours = s.inp.img.hours ∧ img.weekday = s.inp.img.weekday ∧
    img.day = s.inp.img.day ∧ img.month = s.inp.img.month ∧ img.year = s.inp.img.year ∧
    (s.inp.cfg.enabled = true → s.inp.cfg.clkSrc = .externalCrystal →
      img.seconds.getLsbD 7 = true ∧ img.control.getLsbD 3 = false)

/-- R195, R196, R197 (an operation the spec adds, D13): CFGD drives the two bits of the image and depends on
no other bit. -/
def Obligations.CfgdReadsTheTwoBits : Prop :=
  ∀ s : State,
    let cfg : ClockConfig :=
      { enabled := s.inp.img.seconds.getLsbD 7
        clkSrc := if s.inp.img.control.getLsbD 3 = true then .externalClock else .externalCrystal }
    exec .cfgd s = .next { s with out := .cfgd cfg }

/-- R198 (the spec's own inference): CFGD of what CFGE drives is the configuration given, and CFGE of what
CFGD drives is the image given. -/
def Obligations.ClockConfigRoundTrip : Prop :=
  (∀ s t img u, exec .cfge s = .next t → readImgOut t.out = .ok img →
    exec .cfgd { t with inp := { t.inp with img := img } } = .next u → readCfgOut u.out = .ok s.inp.cfg) ∧
  (∀ s t cfg u, exec .cfgd s = .next t → readCfgOut t.out = .ok cfg →
    exec .cfge { t with inp := { t.inp with cfg := cfg } } = .next u → readImgOut u.out = .ok s.inp.img)

/-- R199: OSCS drives bit 5 of register 0x03. -/
def Obligations.OscsReadsTheRunningBit : Prop :=
  ∀ s : State, exec .oscs s = .next { s with out := .oscs (s.inp.img.weekday.getLsbD 5) }

/-- R200: the result of OSCS is driven solely by bit 5 of register 0x03, so OSC_EN and every other bit of the
image leave it unchanged. -/
def Obligations.OscsIsIndependentOfTheEnableBit : Prop :=
  ∀ (s : State) (a b : Image), a.weekday.getLsbD 5 = b.weekday.getLsbD 5 →
    ∃ run, exec .oscs { s with inp := { s.inp with img := a } } =
            .next { s with inp := { s.inp with img := a }, out := .oscs run } ∧
           exec .oscs { s with inp := { s.inp with img := b } } =
            .next { s with inp := { s.inp with img := b }, out := .oscs run }

/-! ### The reserved codes and all operations -/

/-- R85 (the spec's own choice, D16): each of the three reserved codes ends with E_ILLEGAL_OP and changes
nothing else. -/
def Obligations.ReservedCodesReportIllegalOp : Prop :=
  ∀ s : State, exec .reserved101 s = .next { s with out := .error .illegalOp } ∧
    exec .reserved110 s = .next { s with out := .error .illegalOp } ∧
    exec .reserved111 s = .next { s with out := .error .illegalOp }

/-- R240: every evaluation ends in exactly one of OK, an error or a refusal. Each operation completes in a
next state that differs at most in the output ports, unless it is ENCT on an invalid timestamp; none ends
in a fault. -/
def Obligations.OperationsComplete : Prop :=
  ∀ (i : Instr) (s : State),
    (i.wellFormed = true → s.inp.wellFormedFor i = true → ∃ o, o ≠ .undriven ∧ exec i s = .next { s with out := o }) ∧
    (s.inp.wellFormedFor i = false → exec i s = .refused .invalidTimestamp)

/-- The frame of all eight operations (R20, R29, R247): only the output ports change. The ports presented,
every register of the peripheral, the session, and everything the host and the environment hold stay. -/
def Obligations.OperationsChangeOnlyTheOutputs : Prop :=
  ∀ (i : Instr) (s t : State), exec i s = .next t →
    t.op = s.op ∧ t.inp = s.inp ∧ t.handle = s.handle ∧ t.phase = s.phase ∧ t.pending = s.pending ∧
    t.returned = s.returned ∧ t.transactions = s.transactions ∧ t.env = s.env ∧ t.draws = s.draws ∧
    ∀ a, regAt t.bank a = regAt s.bank a

/-- R20: an operation's outcome is a function of the operation and of the values on its input ports only. -/
def Obligations.OperationsDependOnlyOnTheInputs : Prop :=
  ∀ (i : Instr) (s s' : State), s.inp = s'.inp →
    (∀ t, exec i s = .next t → exec i s' = .next { s' with out := t.out }) ∧
    (∀ r, exec i s = .refused r → exec i s' = .refused r)

/-- R81 (the spec's own inference): DECT reads no timestamp and no configuration, ENCT no configuration, CFGE
no timestamp, CFGD only registers 0x00 and 0x07, OSCS only register 0x03, and a reserved code nothing. -/
def Obligations.OperationsReadOnlyTheirPorts : Prop :=
  ∀ (i : Instr) (s : State) (p q : Inputs),
    (i = .dect → p.img = q.img) → (i = .enct → p.img = q.img ∧ p.ts = q.ts) →
    (i = .cfge → p.img = q.img ∧ p.cfg = q.cfg) →
    (i = .cfgd → p.img.seconds = q.img.seconds ∧ p.img.control = q.img.control) →
    (i = .oscs → p.img.weekday = q.img.weekday) →
    (∀ t, exec i { s with inp := p } = .next t → exec i { s with inp := q } = .next { s with inp := q, out := t.out }) ∧
    (∀ r, exec i { s with inp := p } = .refused r → exec i { s with inp := q } = .refused r)

/-- R24, R81: which data port each operation drives when its status is OK; every other data port is undriven,
and reading it is a refusal (R25, D5). -/
def Obligations.OperationsDriveTheirPorts : Prop :=
  ∀ (i : Instr) (s t : State), exec i s = .next t → readStatus t.out = .ok 0#2 →
    ((∃ x, readTsOut t.out = .ok x) ↔ i = .dect) ∧ ((∃ x, readImgOut t.out = .ok x) ↔ i = .enct ∨ i = .cfge) ∧
    ((∃ x, readCfgOut t.out = .ok x) ↔ i = .cfgd) ∧ ((∃ x, readOscRun t.out = .ok x) ↔ i = .oscs)

/-- R240, R241, R245 (the codes are the spec's own choice, D4): an error belongs to its one operation, is
reported by its status code, and leaves every data port undriven. -/
def Obligations.ErrorsDriveNoDataPort : Prop :=
  ∀ (i : Instr) (s t : State) (e : BlockError), exec i s = .next t → t.out = .error e →
    (e = .decode → i = .dect ∧ readStatus t.out = .ok 1#2) ∧ (e = .range → i = .enct ∧ readStatus t.out = .ok 2#2) ∧
    (e = .illegalOp → (i = .reserved101 ∨ i = .reserved110 ∨ i = .reserved111) ∧ readStatus t.out = .ok 3#2) ∧
    readTsOut t.out = .error (.undrivenPort .tsOut) ∧ readImgOut t.out = .error (.undrivenPort .imgOut) ∧
    readCfgOut t.out = .error (.undrivenPort .cfgOut) ∧ readOscRun t.out = .error (.undrivenPort .oscRun)

/-! ### Reset -/

/-- R34, R35, R36, R270 (the spec's own choices D19, D20): after reset every output port is undriven, the
bank is the OPEN initial image, no session is open and nothing is under way. -/
def Obligations.ResetLeavesOutputsUndriven : Prop :=
  readStatus State.reset.out = .error (.undrivenPort .status) ∧
  readTsOut State.reset.out = .error (.undrivenPort .tsOut) ∧
  readImgOut State.reset.out = .error (.undrivenPort .imgOut) ∧
  readCfgOut State.reset.out = .error (.undrivenPort .cfgOut) ∧
  readOscRun State.reset.out = .error (.undrivenPort .oscRun) ∧
  State.reset.bank = Config.deviceInitialImage ∧ State.reset.handle = .caller ∧ State.reset.op = none ∧
  State.reset.phase = .idle ∧ State.reset.pending = []

/-- R270 (the spec's own inference): after reset the block evaluates whatever operation is presented first. The
step is that operation on the values presented, and it completes with the outputs driven; only the
peripheral's own changes go with it (log entry 13). -/
def Obligations.FirstOperationAfterResetRuns : Prop :=
  ∀ (w : OpWord) (inp : Inputs), inp.wellFormedFor (decodeOp w) = true →
    step { State.reset with op := some w, inp := inp } = exec (decodeOp w) { State.reset.passTime with inp := inp } ∧
    ∃ o, o ≠ .undriven ∧
      exec (decodeOp w) { State.reset.passTime with inp := inp } = .next { State.reset.passTime with inp := inp, out := o }

/-! ### The bus -/

/-- R56 and R52 while the peripheral changes nothing: a completed read returns the registers from its start
upward in order, a failed one its error, and neither changes a register. -/
def Obligations.QuietReadReturnsTheRegisters : Prop :=
  ∀ (bank : Image) (a : Byte) (n : Nat) (f : Option TransportError) (u : Byte),
    (a = 0x03#8 ∧ n = 1) ∨ (a = 0x00#8 ∧ (n = 7 ∨ n = 8)) →
    busWriteRead 0x6F#7 [a] n { changes := [], failure := f, updated := u } bank =
      some ((match f with
        | none => .data (([bank.seconds, bank.minutes, bank.hours, bank.weekday, bank.day, bank.month, bank.year,
            bank.control].drop a.toNat).take n)
        | some e => .failed e), bank)

/-- R61 (the spec's own choice for a read that succeeds, D23): whatever a read answers, it changes no register;
only the peripheral may, in its volatile bits. The bytes read agree with the bank in every other bit. -/
def Obligations.ReadsHaveNoSideEffect : Prop :=
  ∀ (dev : DevAddr) (a : Byte) (n : Nat) (m : EnvMove) (bank bank' : Image) (r : ReadReply),
    busWriteRead dev [a] n m bank = some (r, bank') →
    stable bank' = stable bank ∧
    ∀ v, r = .data v → v.length = n ∧ stable (placeAt a.toNat v bank) = stable bank

/-- R57 and R55: a completed write leaves the frame's bytes in the registers from the pointer upward, and the
registers after the frame as they were, in every bit that the peripheral does not change. -/
def Obligations.CompletedWriteUpdatesTheFrame : Prop :=
  ∀ (v : List Byte) (m : EnvMove) (bank bank' : Image) (r : WriteReply),
    m.failure = none → busWrite 0x6F#7 (0x00#8 :: v) m bank = some (r, bank') →
    r = .done ∧ stable bank' = stable (placeAt 0 v bank) ∧ (m.changes = [] → bank' = placeAt 0 v bank)

/-- R60 (any subset is the spec's own choice, D21): a failed write leaves each register of the frame at its
old or at its new value, independently, and every register after the frame at its old value, in every bit
that the peripheral does not change; each subset occurs. -/
def Obligations.FailedWriteUpdatesAnySubset : Prop :=
  (∀ (v : List Byte) (m : EnvMove) (e : TransportError) (bank bank' : Image) (r : WriteReply),
    m.failure = some e → busWrite 0x6F#7 (0x00#8 :: v) m bank = some (r, bank') →
    r = .failed e ∧ ∀ a, regAt (stable bank') a = regAt (stable bank) a ∨
      (a < v.length ∧ regAt (stable bank') a = regAt (stable (placeAt 0 v bank)) a)) ∧
  (∀ (v : List Byte) (e : TransportError) (bank : Image) (u : Byte), v.length = 7 ∨ v.length = 8 →
    ∃ bank', busWrite 0x6F#7 (0x00#8 :: v) (failing e u) bank = some (.failed e, bank') ∧
      ∀ a, a < v.length → regAt bank' a = if u.getLsbD a then regAt (placeAt 0 v bank) a else regAt bank a)

/-- R62, and items U11 and U21 of spec/93 (the spec's own choice, D25): a transaction other than those of R59
is refused. -/
def Obligations.OtherTransactionsAreRefused : Prop :=
  (∀ (a : Byte) (n : Nat) (c : BusCall) (s : State),
    ¬((a = 0x03#8 ∧ n = 1) ∨ (a = 0x00#8 ∧ (n = 7 ∨ n = 8))) → memRead a n c s = .refused .undefinedTransaction) ∧
  (∀ (a : Byte) (v : List Byte) (s : State),
    ¬(a = 0x00#8 ∧ (v.length = 7 ∨ v.length = 8)) → memWrite a v s = .refused .undefinedTransaction)

/-! ### Host sequences -/

/-- R210: NEW takes the bus handle and RELEASE returns it, each in one step, with no transaction, no codec
operation and no failure. Only the peripheral may change the bank meanwhile (R32). The exact next state is the
model's: that its changes come at the start of the step is log entry 13, that the call is one step log entry
16, and the emptied transaction record and the results kept are log entry 17. -/
def Obligations.NewAndReleaseMoveTheHandle : Prop :=
  (∀ (s : State) (rest : List Request), s.op = none → s.phase = .idle → s.handle = .caller → s.pending = .call .new :: rest →
    step s = .next { s.passTime with
      pending := rest, transactions := [], handle := .session, returned := .ok .session :: s.returned }) ∧
  (∀ (s : State) (rest : List Request), s.op = none → s.phase = .idle → s.handle = .session → s.pending = .call .release :: rest →
    step s = .next { s.passTime with
      pending := rest, transactions := [], handle := .caller, returned := .ok .busHandle :: s.returned })

/-- R211: OSC_RUNNING reads one byte at register 0x03, presents it to OSCS and returns its bit 5. -/
def Obligations.OscRunningReturnsTheStatusBit : Prop :=
  ∀ s rest, Awaits .oscRunning rest s → Calm 5 s →
    ∃ t, run 5 s = .next t ∧ t.phase = .idle ∧ t.pending = rest ∧ t.bank = s.bank ∧
      t.returned = .ok (.running (s.bank.weekday.getLsbD 5)) :: s.returned ∧
      t.transactions = [.writeRead 0x6F#7 [0x03#8] 1]

/-- R212: NOW reads seven bytes at register 0x00 and returns what DECT makes of them, or Domain(Decode) where
DECT ends with E_DECODE. -/
def Obligations.NowReturnsTheDecodedTime : Prop :=
  ∀ s rest u, Awaits .now rest s → Calm 5 s →
    exec .dect { s with inp := { s.inp with img := s.bank } } = .next u →
    ∃ t, run 5 s = .next t ∧ t.phase = .idle ∧ t.pending = rest ∧ t.bank = s.bank ∧
      t.transactions = [.writeRead 0x6F#7 [0x00#8] 7] ∧
      (∀ ts, readTsOut u.out = .ok ts → t.returned = .ok (.timestamp ts) :: s.returned) ∧
      (u.out = .error .decode → t.returned = .domainDecode :: s.returned)

/-- R213: SET_DATETIME on a valid timestamp of 2000..2099 reads registers 0x00..0x06, encodes into them and
writes them back as one 8-byte frame; register 0x07 is not written. -/
def Obligations.SetDatetimeWritesTheEncodedImage : Prop :=
  ∀ s ts rest u img, Awaits (.setDatetime ts) rest s → Calm 7 s →
    exec .enct { s with inp := { s.inp with img := s.bank, ts := ts } } = .next u → readImgOut u.out = .ok img →
    ∃ t, run 7 s = .next t ∧ t.phase = .idle ∧ t.pending = rest ∧ t.bank = { img with control := s.bank.control } ∧
      t.returned = .ok .unit :: s.returned ∧
      t.transactions = [.writeRead 0x6F#7 [0x00#8] 7,
        .write 0x6F#7 [0x00#8, img.seconds, img.minutes, img.hours, img.weekday, img.day, img.month, img.year]]

/-- R213, R214 (the order of the check is OPEN, D14): a year outside 2000..2099 ends SET_DATETIME with
Domain(Range); no write is issued and no register changes; with the check first there is no transaction. -/
def Obligations.SetDatetimeRangeErrorWritesNothing : Prop :=
  ∀ s ts rest, Awaits (.setDatetime ts) rest s → Calm 5 s → tsValid ts = true →
    (ts.year < 2000 ∨ 2099 < ts.year) →
    ∃ k t, k ≤ 5 ∧ run k s = .next t ∧ t.phase = .idle ∧ t.pending = rest ∧ t.bank = s.bank ∧
      t.returned = .domainRange :: s.returned ∧
      t.transactions = if Config.rangeCheckBeforeRead then [] else [.writeRead 0x6F#7 [0x00#8] 7]

/-- R215: CONFIGURE_CLOCK reads registers 0x00..0x07, changes the two bits and writes all eight back as one
9-byte frame. -/
def Obligations.ConfigureClockWritesBackTheSpan : Prop :=
  ∀ s cfg rest u img, Awaits (.configureClock cfg) rest s → Calm 7 s →
    exec .cfge { s with inp := { s.inp with img := s.bank, cfg := cfg } } = .next u → readImgOut u.out = .ok img →
    ∃ t, run 7 s = .next t ∧ t.phase = .idle ∧ t.pending = rest ∧ t.bank = img ∧
      t.returned = .ok .unit :: s.returned ∧
      t.transactions = [.writeRead 0x6F#7 [0x00#8] 8,
        .write 0x6F#7 [0x00#8, img.seconds, img.minutes, img.hours, img.weekday, img.day, img.month, img.year,
          img.control]]

/-- R173 with R212 and R213: NOW after SET_DATETIME returns the timestamp that was set, for every valid
timestamp of 2000..2099 and every bank, when the transactions complete and the peripheral changes nothing. -/
def Obligations.NowAfterSetDatetimeReturnsTheTimeSet : Prop :=
  ∀ s ts rest, Awaits (.setDatetime ts) (.call (.onBus .now) :: rest) s →
    Calm 12 s → tsValid ts = true → 2000 ≤ ts.year → ts.year ≤ 2099 →
    ∃ t, run 12 s = .next t ∧ t.phase = .idle ∧ t.pending = rest ∧
      t.returned = .ok (.timestamp ts) :: .ok .unit :: s.returned

/-- R273 (the spec's own inference): CONFIGURE_CLOCK then SET_DATETIME and SET_DATETIME then CONFIGURE_CLOCK
leave the same registers, if the peripheral changes none in between. -/
def Obligations.InitialisationOrderDoesNotMatter : Prop :=
  ∀ (s : State) (ts : Timestamp) (cfg : ClockConfig) (rest : List Request), s.op = none → s.phase = .idle → s.handle = .session →
    Calm 14 s → tsValid ts = true → 2000 ≤ ts.year → ts.year ≤ 2099 →
    ∃ t u, run 14 { s with pending := .call (.onBus (.configureClock cfg)) :: .call (.onBus (.setDatetime ts)) :: rest }
        = .next t ∧
      run 14 { s with pending := .call (.onBus (.setDatetime ts)) :: .call (.onBus (.configureClock cfg)) :: rest }
        = .next u ∧
      t.bank = u.bank ∧ t.phase = .idle ∧ u.phase = .idle ∧ t.pending = rest ∧ u.pending = rest

/-- R193 over a whole CONFIGURE_CLOCK, whatever the peripheral does meanwhile and whether or not the write
completes: no bit outside `device_volatile_mask` changes but register 0x00 bit 7 and register 0x07 bit 3.
The read is the second step. -/
def Obligations.ConfigureClockKeepsUnmodelledBits : Prop :=
  ∀ s cfg rest t, Awaits (.configureClock cfg) rest s → (s.moveAt 1).failure = none → run 7 s = .next t →
    t.phase = .idle ∧ t.pending = rest ∧
    (stable t.bank).seconds &&& 0x7F#8 = (stable s.bank).seconds &&& 0x7F#8 ∧
    (stable t.bank).control &&& 0xF7#8 = (stable s.bank).control &&& 0xF7#8 ∧
    (stable t.bank).minutes = (stable s.bank).minutes ∧ (stable t.bank).hours = (stable s.bank).hours ∧
    (stable t.bank).weekday = (stable s.bank).weekday ∧ (stable t.bank).day = (stable s.bank).day ∧
    (stable t.bank).month = (stable s.bank).month ∧ (stable t.bank).year = (stable s.bank).year

/-- R174 over a whole SET_DATETIME, whatever the peripheral does meanwhile and whether or not the write
completes: outside `device_volatile_mask`, OSC_EN, the top bits of minutes and hours, the weekday register,
the high bits of day and month and the control register are as before. The read is the second step. -/
def Obligations.SetDatetimeKeepsUnrelatedBits : Prop :=
  ∀ s ts rest t, Awaits (.setDatetime ts) rest s → (s.moveAt 1).failure = none →
    2000 ≤ ts.year → ts.year ≤ 2099 → run 7 s = .next t →
    t.phase = .idle ∧ t.pending = rest ∧
    (stable t.bank).seconds &&& 0x80#8 = (stable s.bank).seconds &&& 0x80#8 ∧
    (stable t.bank).minutes &&& 0x80#8 = (stable s.bank).minutes &&& 0x80#8 ∧
    (stable t.bank).hours &&& 0x80#8 = (stable s.bank).hours &&& 0x80#8 ∧
    (stable t.bank).weekday = (stable s.bank).weekday ∧
    (stable t.bank).day &&& 0xC0#8 = (stable s.bank).day &&& 0xC0#8 ∧
    (stable t.bank).month &&& 0xC0#8 = (stable s.bank).month &&& 0xC0#8 ∧
    (stable t.bank).control = (stable s.bank).control

/-- R216: a transport error of the read ends any sequence at once, after one transaction, with the error passed
on unchanged and nothing written, whatever the peripheral does meanwhile. The read is the second step. -/
def Obligations.ReadErrorEndsTheSequence : Prop :=
  ∀ s c rest e, Awaits c rest s → (s.moveAt 1).failure = some e → c.wellFormed = true →
    (∀ ts, c = .setDatetime ts → 2000 ≤ ts.year ∧ ts.year ≤ 2099) →
    ∃ t, run 3 s = .next t ∧ t.phase = .idle ∧ t.pending = rest ∧ stable t.bank = stable s.bank ∧
      ((∀ k, k < 3 → (s.moveAt k).changes = []) → t.bank = s.bank) ∧
      t.returned = .transport e :: s.returned ∧ t.transactions.length = 1

/-- R216: a transport error of the write ends SET_DATETIME or CONFIGURE_CLOCK after two transactions, with the
error passed on unchanged and no retry, whatever the peripheral does meanwhile. The read is the second step
and the write the sixth. -/
def Obligations.WriteErrorEndsTheSequence : Prop :=
  ∀ s c rest e, Awaits c rest s → (s.moveAt 1).failure = none → (s.moveAt 5).failure = some e →
    ((∃ cfg, c = .configureClock cfg) ∨
      ∃ ts, c = .setDatetime ts ∧ tsValid ts = true ∧ 2000 ≤ ts.year ∧ ts.year ≤ 2099) →
    ∃ t, run 7 s = .next t ∧ t.phase = .idle ∧ t.pending = rest ∧ t.returned = .transport e :: s.returned ∧
      t.transactions.length = 2

/-! ### The whole machine -/

/-- The invariant holds after reset; its first clause is the model's reading of R36 (log entry 14). -/
def Obligations.ResetMeetsTheInvariant : Prop := Invariant State.reset

/-- Every step keeps the machine's invariant, from every state, whatever the environment does: a sequence is
under way only while the session owns the handle, the transactions are counted as R220 says, and the driven
outputs are as R24, R26 and R163 say. The first clause is the model's reading of R36 (log entry 14: calls
without a session are refused); the year 2165 rests on D8 (log entry 10), month bit 5 on D15. -/
def Obligations.StepKeepsTheInvariant : Prop := ∀ s t, Invariant s → step s = .next t → Invariant t

/-- R220 (the spec's own inference): when a host sequence returns, it has performed as many transactions as the
rule says for what it returned. -/
def Obligations.SequencesPerformAtMostTwoTransactions : Prop :=
  ∀ s t r, Invariant s → step s = .next t → t.returned = r :: s.returned →
    t.transactions.length ≤ 2 ∧
    (r = .ok .session ∨ r = .ok .busHandle → t.transactions.length = 0) ∧
    (∀ b, r = .ok (.running b) → t.transactions.length = 1) ∧
    (∀ ts, r = .ok (.timestamp ts) → t.transactions.length = 1) ∧
    (r = .domainDecode → t.transactions.length = 1) ∧ (r = .domainRange → t.transactions.length ≤ 1) ∧
    (r = .ok .unit → t.transactions.length = 2) ∧ (∀ e, r = .transport e → 1 ≤ t.transactions.length)

/-- R29: the block and the host change the bank only through a write that the host issues; in every other step
the bits outside `device_volatile_mask` stay. -/
def Obligations.OnlyWritesChangeTheStableBank : Prop :=
  ∀ s t, step s = .next t → stable t.bank = stable s.bank ∨ (s.op = none ∧ ∃ v, s.phase = .writing v)

/-- R32, R64 and R281 (when is the model's reading, log entry 13; the mask is OPEN, D22): the peripheral may change
its volatile bits in every step, also while the block evaluates or the host looks at a reply, and between
the bytes of a read, which may then be torn; one change can reach every value of those bits. -/
def Obligations.PeripheralMayChangeAtAnyTime : Prop :=
  (∀ s t, step s = .next t → (s.op ≠ none ∨ ((∀ c, s.phase ≠ .reading c) ∧ ∀ v, s.phase ≠ .writing v)) →
    t.bank = changeAll (s.moveAt 0).changes s.bank) ∧
  (∀ (cs : List Image) (u : Byte) (b : Image),
    busWriteRead 0x6F#7 [0x00#8] 8 { changes := cs, failure := none, updated := u } b =
      some (.data [(changeAll (cs.take 1) b).seconds, (changeAll (cs.take 2) b).minutes,
        (changeAll (cs.take 3) b).hours, (changeAll (cs.take 4) b).weekday, (changeAll (cs.take 5) b).day,
        (changeAll (cs.take 6) b).month, (changeAll (cs.take 7) b).year, (changeAll (cs.take 8) b).control],
        changeAll cs b)) ∧
  (∀ b b' : Image, stable b' = stable b → ∃ c, peripheralChange c b = b')

/-- A legal program presented after reset starts a machine that is running it. -/
def Obligations.LegalProgramsStartRunning : Prop :=
  ∀ p, legal .caller p = true → Running { State.reset with pending := p }

/-- A machine that is running a legal program never faults and is never refused, whatever the environment
does: every finite run of it goes on. -/
def Obligations.RunningMachinesAreSafe : Prop := ∀ s, Running s → Safe s
end

