-- ==== Sys2Proof/Laws/State.lean ====
section
/-! SUPPORT. One lemma per field of State per update of Machine/Ops.lean, so that no later proof unfolds a
record update. -/

namespace Sys2Proof.Machine

variable (s : State)

/-! drive: an evaluation drives the output ports. -/

@[simp] theorem State.drive_op (o : Outputs) : (s.drive o).op = s.op := rfl
@[simp] theorem State.drive_inp (o : Outputs) : (s.drive o).inp = s.inp := rfl
@[simp] theorem State.drive_out (o : Outputs) : (s.drive o).out = o := rfl
@[simp] theorem State.drive_bank (o : Outputs) : (s.drive o).bank = s.bank := rfl
@[simp] theorem State.drive_handle (o : Outputs) : (s.drive o).handle = s.handle := rfl
@[simp] theorem State.drive_phase (o : Outputs) : (s.drive o).phase = s.phase := rfl
@[simp] theorem State.drive_pending (o : Outputs) : (s.drive o).pending = s.pending := rfl
@[simp] theorem State.drive_returned (o : Outputs) : (s.drive o).returned = s.returned := rfl
@[simp] theorem State.drive_transactions (o : Outputs) : (s.drive o).transactions = s.transactions := rfl
@[simp] theorem State.drive_env (o : Outputs) : (s.drive o).env = s.env := rfl
@[simp] theorem State.drive_draws (o : Outputs) : (s.drive o).draws = s.draws := rfl

/-! takeMove: one move of the environment is used up. -/

@[simp] theorem State.takeMove_op : (s.takeMove).op = s.op := rfl
@[simp] theorem State.takeMove_inp : (s.takeMove).inp = s.inp := rfl
@[simp] theorem State.takeMove_out : (s.takeMove).out = s.out := rfl
@[simp] theorem State.takeMove_bank : (s.takeMove).bank = s.bank := rfl
@[simp] theorem State.takeMove_handle : (s.takeMove).handle = s.handle := rfl
@[simp] theorem State.takeMove_phase : (s.takeMove).phase = s.phase := rfl
@[simp] theorem State.takeMove_pending : (s.takeMove).pending = s.pending := rfl
@[simp] theorem State.takeMove_returned : (s.takeMove).returned = s.returned := rfl
@[simp] theorem State.takeMove_transactions : (s.takeMove).transactions = s.transactions := rfl
@[simp] theorem State.takeMove_env : (s.takeMove).env = s.env.tail := rfl
@[simp] theorem State.takeMove_draws : (s.takeMove).draws = s.draws + 1 := rfl

/-! takeOp: the block takes the operation word. -/

@[simp] theorem State.takeOp_op : (s.takeOp).op = none := rfl
@[simp] theorem State.takeOp_inp : (s.takeOp).inp = s.inp := rfl
@[simp] theorem State.takeOp_out : (s.takeOp).out = s.out := rfl
@[simp] theorem State.takeOp_bank : (s.takeOp).bank = s.bank := rfl
@[simp] theorem State.takeOp_handle : (s.takeOp).handle = s.handle := rfl
@[simp] theorem State.takeOp_phase : (s.takeOp).phase = s.phase := rfl
@[simp] theorem State.takeOp_pending : (s.takeOp).pending = s.pending := rfl
@[simp] theorem State.takeOp_returned : (s.takeOp).returned = s.returned := rfl
@[simp] theorem State.takeOp_transactions : (s.takeOp).transactions = s.transactions := rfl
@[simp] theorem State.takeOp_env : (s.takeOp).env = s.env := rfl
@[simp] theorem State.takeOp_draws : (s.takeOp).draws = s.draws := rfl

/-! present: an operation is presented. -/

@[simp] theorem State.present_op (w : OpWord) (i : Inputs) : (s.present w i).op = some w := rfl
@[simp] theorem State.present_inp (w : OpWord) (i : Inputs) : (s.present w i).inp = i := rfl
@[simp] theorem State.present_out (w : OpWord) (i : Inputs) : (s.present w i).out = .undriven := rfl
@[simp] theorem State.present_bank (w : OpWord) (i : Inputs) : (s.present w i).bank = s.bank := rfl
@[simp] theorem State.present_handle (w : OpWord) (i : Inputs) : (s.present w i).handle = s.handle := rfl
@[simp] theorem State.present_phase (w : OpWord) (i : Inputs) : (s.present w i).phase = s.phase := rfl
@[simp] theorem State.present_pending (w : OpWord) (i : Inputs) : (s.present w i).pending = s.pending := rfl
@[simp] theorem State.present_returned (w : OpWord) (i : Inputs) : (s.present w i).returned = s.returned := rfl
@[simp] theorem State.present_transactions (w : OpWord) (i : Inputs) : (s.present w i).transactions = s.transactions := rfl
@[simp] theorem State.present_env (w : OpWord) (i : Inputs) : (s.present w i).env = s.env := rfl
@[simp] theorem State.present_draws (w : OpWord) (i : Inputs) : (s.present w i).draws = s.draws := rfl

/-! beginRequest: the host begins a request. -/

@[simp] theorem State.beginRequest_op (r : List Request) : (s.beginRequest r).op = s.op := rfl
@[simp] theorem State.beginRequest_inp (r : List Request) : (s.beginRequest r).inp = s.inp := rfl
@[simp] theorem State.beginRequest_out (r : List Request) : (s.beginRequest r).out = s.out := rfl
@[simp] theorem State.beginRequest_bank (r : List Request) : (s.beginRequest r).bank = s.bank := rfl
@[simp] theorem State.beginRequest_handle (r : List Request) : (s.beginRequest r).handle = s.handle := rfl
@[simp] theorem State.beginRequest_phase (r : List Request) : (s.beginRequest r).phase = s.phase := rfl
@[simp] theorem State.beginRequest_pending (r : List Request) : (s.beginRequest r).pending = r := rfl
@[simp] theorem State.beginRequest_returned (r : List Request) : (s.beginRequest r).returned = s.returned := rfl
@[simp] theorem State.beginRequest_transactions (r : List Request) : (s.beginRequest r).transactions = [] := rfl
@[simp] theorem State.beginRequest_env (r : List Request) : (s.beginRequest r).env = s.env := rfl
@[simp] theorem State.beginRequest_draws (r : List Request) : (s.beginRequest r).draws = s.draws := rfl

/-! withBank: the bank is replaced. -/

@[simp] theorem State.withBank_op (b : Image) : (s.withBank b).op = s.op := rfl
@[simp] theorem State.withBank_inp (b : Image) : (s.withBank b).inp = s.inp := rfl
@[simp] theorem State.withBank_out (b : Image) : (s.withBank b).out = s.out := rfl
@[simp] theorem State.withBank_bank (b : Image) : (s.withBank b).bank = b := rfl
@[simp] theorem State.withBank_handle (b : Image) : (s.withBank b).handle = s.handle := rfl
@[simp] theorem State.withBank_phase (b : Image) : (s.withBank b).phase = s.phase := rfl
@[simp] theorem State.withBank_pending (b : Image) : (s.withBank b).pending = s.pending := rfl
@[simp] theorem State.withBank_returned (b : Image) : (s.withBank b).returned = s.returned := rfl
@[simp] theorem State.withBank_transactions (b : Image) : (s.withBank b).transactions = s.transactions := rfl
@[simp] theorem State.withBank_env (b : Image) : (s.withBank b).env = s.env := rfl
@[simp] theorem State.withBank_draws (b : Image) : (s.withBank b).draws = s.draws := rfl

/-! passTime: the peripheral makes its own changes and the environment's move is used up. -/

@[simp] theorem State.passTime_op : (s.passTime).op = s.op := rfl
@[simp] theorem State.passTime_inp : (s.passTime).inp = s.inp := rfl
@[simp] theorem State.passTime_out : (s.passTime).out = s.out := rfl
@[simp] theorem State.passTime_bank : (s.passTime).bank = changeAll s.nextMove.changes s.bank := rfl
@[simp] theorem State.passTime_handle : (s.passTime).handle = s.handle := rfl
@[simp] theorem State.passTime_phase : (s.passTime).phase = s.phase := rfl
@[simp] theorem State.passTime_pending : (s.passTime).pending = s.pending := rfl
@[simp] theorem State.passTime_returned : (s.passTime).returned = s.returned := rfl
@[simp] theorem State.passTime_transactions : (s.passTime).transactions = s.transactions := rfl
@[simp] theorem State.passTime_env : (s.passTime).env = s.env.tail := rfl
@[simp] theorem State.passTime_draws : (s.passTime).draws = s.draws + 1 := rfl

/-! withPhase: the sequence reaches another phase. -/

@[simp] theorem State.withPhase_op (p : Phase) : (s.withPhase p).op = s.op := rfl
@[simp] theorem State.withPhase_inp (p : Phase) : (s.withPhase p).inp = s.inp := rfl
@[simp] theorem State.withPhase_out (p : Phase) : (s.withPhase p).out = s.out := rfl
@[simp] theorem State.withPhase_bank (p : Phase) : (s.withPhase p).bank = s.bank := rfl
@[simp] theorem State.withPhase_handle (p : Phase) : (s.withPhase p).handle = s.handle := rfl
@[simp] theorem State.withPhase_phase (p : Phase) : (s.withPhase p).phase = p := rfl
@[simp] theorem State.withPhase_pending (p : Phase) : (s.withPhase p).pending = s.pending := rfl
@[simp] theorem State.withPhase_returned (p : Phase) : (s.withPhase p).returned = s.returned := rfl
@[simp] theorem State.withPhase_transactions (p : Phase) : (s.withPhase p).transactions = s.transactions := rfl
@[simp] theorem State.withPhase_env (p : Phase) : (s.withPhase p).env = s.env := rfl
@[simp] theorem State.withPhase_draws (p : Phase) : (s.withPhase p).draws = s.draws := rfl

/-! withHandle: the bus handle changes hands. -/

@[simp] theorem State.withHandle_op (o : Owner) : (s.withHandle o).op = s.op := rfl
@[simp] theorem State.withHandle_inp (o : Owner) : (s.withHandle o).inp = s.inp := rfl
@[simp] theorem State.withHandle_out (o : Owner) : (s.withHandle o).out = s.out := rfl
@[simp] theorem State.withHandle_bank (o : Owner) : (s.withHandle o).bank = s.bank := rfl
@[simp] theorem State.withHandle_handle (o : Owner) : (s.withHandle o).handle = o := rfl
@[simp] theorem State.withHandle_phase (o : Owner) : (s.withHandle o).phase = s.phase := rfl
@[simp] theorem State.withHandle_pending (o : Owner) : (s.withHandle o).pending = s.pending := rfl
@[simp] theorem State.withHandle_returned (o : Owner) : (s.withHandle o).returned = s.returned := rfl
@[simp] theorem State.withHandle_transactions (o : Owner) : (s.withHandle o).transactions = s.transactions := rfl
@[simp] theorem State.withHandle_env (o : Owner) : (s.withHandle o).env = s.env := rfl
@[simp] theorem State.withHandle_draws (o : Owner) : (s.withHandle o).draws = s.draws := rfl

/-! afterTransaction: a transaction is recorded with the bank after it. -/

@[simp] theorem State.afterTransaction_op (q : BusRequest) (b : Image) : (s.afterTransaction q b).op = s.op := rfl
@[simp] theorem State.afterTransaction_inp (q : BusRequest) (b : Image) : (s.afterTransaction q b).inp = s.inp := rfl
@[simp] theorem State.afterTransaction_out (q : BusRequest) (b : Image) : (s.afterTransaction q b).out = s.out := rfl
@[simp] theorem State.afterTransaction_bank (q : BusRequest) (b : Image) : (s.afterTransaction q b).bank = b := rfl
@[simp] theorem State.afterTransaction_handle (q : BusRequest) (b : Image) : (s.afterTransaction q b).handle = s.handle := rfl
@[simp] theorem State.afterTransaction_phase (q : BusRequest) (b : Image) : (s.afterTransaction q b).phase = s.phase := rfl
@[simp] theorem State.afterTransaction_pending (q : BusRequest) (b : Image) : (s.afterTransaction q b).pending = s.pending := rfl
@[simp] theorem State.afterTransaction_returned (q : BusRequest) (b : Image) : (s.afterTransaction q b).returned = s.returned := rfl
@[simp] theorem State.afterTransaction_transactions (q : BusRequest) (b : Image) : (s.afterTransaction q b).transactions = s.transactions ++ [q] := rfl
@[simp] theorem State.afterTransaction_env (q : BusRequest) (b : Image) : (s.afterTransaction q b).env = s.env := rfl
@[simp] theorem State.afterTransaction_draws (q : BusRequest) (b : Image) : (s.afterTransaction q b).draws = s.draws := rfl

/-! returnCall: a sequence returns. -/

@[simp] theorem State.returnCall_op (r : CallResult) : (s.returnCall r).op = s.op := rfl
@[simp] theorem State.returnCall_inp (r : CallResult) : (s.returnCall r).inp = s.inp := rfl
@[simp] theorem State.returnCall_out (r : CallResult) : (s.returnCall r).out = s.out := rfl
@[simp] theorem State.returnCall_bank (r : CallResult) : (s.returnCall r).bank = s.bank := rfl
@[simp] theorem State.returnCall_handle (r : CallResult) : (s.returnCall r).handle = s.handle := rfl
@[simp] theorem State.returnCall_phase (r : CallResult) : (s.returnCall r).phase = .idle := rfl
@[simp] theorem State.returnCall_pending (r : CallResult) : (s.returnCall r).pending = s.pending := rfl
@[simp] theorem State.returnCall_returned (r : CallResult) : (s.returnCall r).returned = r :: s.returned := rfl
@[simp] theorem State.returnCall_transactions (r : CallResult) : (s.returnCall r).transactions = s.transactions := rfl
@[simp] theorem State.returnCall_env (r : CallResult) : (s.returnCall r).env = s.env := rfl
@[simp] theorem State.returnCall_draws (r : CallResult) : (s.returnCall r).draws = s.draws := rfl

/-! moveAt: the environment's moves, seen from the state after an update. -/

@[simp] theorem State.nextMove_eq : s.nextMove = s.moveAt 0 := rfl

@[simp] theorem State.takeMove_moveAt (k : Nat) : (s.takeMove).moveAt k = s.moveAt (k + 1) := by
  simp [State.moveAt, Nat.add_right_comm, Nat.add_assoc]

@[simp] theorem State.passTime_moveAt (k : Nat) : (s.passTime).moveAt k = s.moveAt (k + 1) := s.takeMove_moveAt k
@[simp] theorem State.drive_moveAt (o : Outputs) (k : Nat) : (s.drive o).moveAt k = s.moveAt k := rfl
@[simp] theorem State.takeOp_moveAt (k : Nat) : (s.takeOp).moveAt k = s.moveAt k := rfl
@[simp] theorem State.present_moveAt (w : OpWord) (i : Inputs) (k : Nat) : (s.present w i).moveAt k = s.moveAt k := rfl
@[simp] theorem State.beginRequest_moveAt (r : List Request) (k : Nat) : (s.beginRequest r).moveAt k = s.moveAt k := rfl
@[simp] theorem State.withBank_moveAt (b : Image) (k : Nat) : (s.withBank b).moveAt k = s.moveAt k := rfl
@[simp] theorem State.withPhase_moveAt (p : Phase) (k : Nat) : (s.withPhase p).moveAt k = s.moveAt k := rfl
@[simp] theorem State.withHandle_moveAt (o : Owner) (k : Nat) : (s.withHandle o).moveAt k = s.moveAt k := rfl
@[simp] theorem State.afterTransaction_moveAt (q : BusRequest) (b : Image) (k : Nat) : (s.afterTransaction q b).moveAt k = s.moveAt k := rfl
@[simp] theorem State.returnCall_moveAt (r : CallResult) (k : Nat) : (s.returnCall r).moveAt k = s.moveAt k := rfl

end Sys2Proof.Machine
end

