-- ==== Sys2Proof/Laws/Bus.lean ====
section
/-! SUPPORT. The bus: what a burst does to the bank and to the bits the peripheral never changes on its own,
by one induction each; and what `memRead` and `memWrite` can answer. -/

namespace Sys2Proof.Machine

open Sys2Proof.Safety

/-! ### The peripheral's own changes -/

/-- Flipping bits within a mask leaves the bits outside it. -/
@[simp] theorem outside_flipWithin (m c b : Byte) : outside m (flipWithin m c b) = outside m b := by
  ext i hi
  simp only [outside, flipWithin, BitVec.getElem_and, BitVec.getElem_xor, BitVec.getElem_not]
  cases m[i] <;> simp

@[simp] theorem stable_peripheralChange (c b : Image) : stable (peripheralChange c b) = stable b := by
  simp [stable, peripheralChange]

@[simp] theorem stable_changeAll (cs : List Image) (b : Image) : stable (changeAll cs b) = stable b := by
  induction cs generalizing b with
  | nil => rfl
  | cons c cs ih => simp [changeAll, ih]

/-- The peripheral's own changes in a step leave the stable bits of the bank. -/
theorem stable_passTime (s : State) : stable s.passTime.bank = stable s.bank := stable_changeAll _ _

@[simp] theorem stable_changeOnce (cs : List Image) (b : Image) : stable (changeOnce cs b) = stable b := by
  cases cs <;> simp [changeOnce]

/-! ### Bursts -/

/-- A read burst changes no bit that the peripheral does not change on its own (R61). -/
theorem readBurst_stable {n a : Nat} {cs : List Image} {b b' : Image} {v : List Byte}
    (h : readBurst a n cs b = some (v, b')) : stable b' = stable b ∧ v.length = n := by
  induction n generalizing a cs b b' v with
  | zero => simp only [readBurst, Option.some.injEq, Prod.mk.injEq] at h; simp [← h.1, ← h.2]
  | succ n ih =>
    simp only [readBurst] at h
    split at h
    · rename_i x v' b'' hx hr
      simp only [Option.some.injEq, Prod.mk.injEq] at h
      obtain ⟨h1, h2⟩ := ih hr
      refine ⟨?_, by simp [← h.1, h2]⟩
      rw [← h.2, h1, stable_changeOnce]
    · cases h

/-! ### Registers by address -/

/-- Placing bytes one at a time. -/
theorem placeAt_cons {a : Nat} {x : Byte} {v : List Byte} {b b' : Image} (h : setRegAt b a x = some b') :
    placeAt a (x :: v) b = placeAt (a + 1) v b' := by
  simp [placeAt, h]

/-- Every register 0x00..0x07 can be set. -/
theorem setRegAt_some {a : Nat} (h : a < 8) (b : Image) (x : Byte) : ∃ b', setRegAt b a x = some b' := by
  interval_cases a <;> exact ⟨_, rfl⟩

/-- Every register 0x00..0x07 can be read. -/
theorem regAt_some {a : Nat} (h : a < 8) (b : Image) : ∃ x, regAt b a = some x := by
  interval_cases a <;> exact ⟨_, rfl⟩

/-- There is no register at 0x08 and above. -/
theorem regAt_none {a : Nat} (h : 8 ≤ a) (b : Image) : regAt b a = none := by
  unfold regAt; split <;> first | omega | rfl

/-- Setting a register changes that register and no other. -/
theorem regAt_setRegAt {b b' : Image} {a : Nat} {x : Byte} (h : setRegAt b a x = some b') (k : Nat) :
    regAt b' k = if k = a then some x else regAt b k := by
  unfold setRegAt at h
  split at h <;> cases h <;>
  · by_cases hk : k < 8
    · interval_cases k <;> rfl
    · rw [regAt_none (by omega), regAt_none (by omega), if_neg (by omega)]

/-- The bytes placed at 0x00..0x06 replace the whole image but register 0x07. -/
theorem placeAt_seven (b v : Image) : placeAt 0 ((regsOf b).take 7) v = { b with control := v.control } := by
  simp [placeAt, regsOf, setRegAt]

/-- The bytes placed at 0x00..0x07 replace the whole image. -/
theorem placeAt_eight (b v : Image) : placeAt 0 (regsOf b) v = b := by
  simp [placeAt, regsOf, setRegAt]

/-- A read burst within the map answers. -/
theorem readBurst_some (n : Nat) : ∀ (a : Nat) (cs : List Image) (b : Image), a + n ≤ 8 →
    ∃ v b', readBurst a n cs b = some (v, b') := by
  induction n with
  | zero => intros; exact ⟨_, _, rfl⟩
  | succ n ih =>
    intro a cs b hl
    obtain ⟨v, b', h⟩ := ih (a + 1) cs.tail (changeOnce cs b) (by omega)
    obtain ⟨x, hx⟩ := regAt_some (by omega : a < 8) (changeOnce cs b)
    exact ⟨x :: v, b', by simp only [readBurst, hx, h]⟩

/-- A write burst within the map answers. -/
theorem writeBurst_some (sel : Byte) (v : List Byte) : ∀ (a : Nat) (cs : List Image) (b : Image),
    a + v.length ≤ 8 → ∃ b', writeBurst sel a v cs b = some b' := by
  induction v with
  | nil => intros; exact ⟨_, rfl⟩
  | cons x v ih =>
    intro a cs b hl
    simp only [List.length_cons] at hl
    obtain ⟨b1, hb⟩ := setRegAt_some (by omega : a < 8) (changeOnce cs b) x
    simp only [writeBurst, hb]
    exact ih _ _ _ (by omega)

/-! ### What the bus operations can answer -/

/-- If `memRead` answers next: it has recorded one transaction, taken one move of the environment, reached
`readDone`, and left the stable bits of the bank. -/
theorem memRead_next {a : Byte} {n : Nat} {c : BusCall} {s t : State} (h : memRead a n c s = .next t) :
    ∃ r bank, stable bank = stable s.bank ∧
      t = (s.takeMove.afterTransaction (.writeRead devAddr [a] n) bank).withPhase (.readDone c r) := by
  simp only [memRead, busWriteRead] at h
  split at h
  · rename_i r bank hb
    split at hb
    · split at hb
      · rename_i v bank' hr
        cases h
        refine ⟨r, bank, ?_, rfl⟩
        have := (readBurst_stable hr).1
        split at hb <;> (cases hb; exact this)
      · cases hb
    · cases hb
  · cases h

/-- If `memWrite` answers next: it has recorded one transaction, taken one move of the environment and
reached `writeDone`. -/
theorem memWrite_next {a : Byte} {v : List Byte} {s t : State} (h : memWrite a v s = .next t) :
    ∃ r bank, t = (s.takeMove.afterTransaction (.write devAddr (writeFrame a v)) bank).withPhase (.writeDone r) := by
  simp only [memWrite] at h
  split at h
  · rename_i r bank _
    cases h
    exact ⟨r, bank, rfl⟩
  · cases h

end Sys2Proof.Machine
end

