-- ==== Sys2Proof/Laws/Operands.lean ====
section
/-! SUPPORT. What the bit fields, the converters and the validity check of Machine/Operands.lean come to in
arithmetic: each is unfolded here once. -/

namespace Sys2Proof.Machine

/-! ### Fields -/

theorem bits_3_0 (b : Byte) : bits b 3 0 = b.toNat % 16 := by
  simp [bits, BitVec.extractLsb, BitVec.extractLsb']

theorem bits_6_4 (b : Byte) : bits b 6 4 = b.toNat / 16 % 8 := by
  simp [bits, BitVec.extractLsb, BitVec.extractLsb', BitVec.toNat_ofNat, Nat.shiftRight_eq_div_pow]

theorem bits_5_4 (b : Byte) : bits b 5 4 = b.toNat / 16 % 4 := by
  simp [bits, BitVec.extractLsb, BitVec.extractLsb', BitVec.toNat_ofNat, Nat.shiftRight_eq_div_pow]

theorem bits_4_4 (b : Byte) : bits b 4 4 = b.toNat / 16 % 2 := by
  simp [bits, BitVec.extractLsb, BitVec.extractLsb', BitVec.toNat_ofNat, Nat.shiftRight_eq_div_pow]

theorem bits_7_4 (b : Byte) : bits b 7 4 = b.toNat / 16 := by
  have := b.isLt
  simp [bits, BitVec.extractLsb, BitVec.extractLsb', BitVec.toNat_ofNat, Nat.shiftRight_eq_div_pow]
  omega

/-! ### Ranges of the field decoders (R101) -/

theorem decT3_le (b : Byte) : decT3 b ≤ 85 := by
  simp only [decT3, bcd2bin, bits_6_4, bits_3_0]; omega

theorem decT2_le (b : Byte) : decT2 b ≤ 45 := by
  simp only [decT2, bcd2bin, bits_5_4, bits_3_0]; omega

theorem decT1_le (b : Byte) : decT1 b ≤ 25 := by
  simp only [decT1, bcd2bin, bits_4_4, bits_3_0]; omega

theorem decT4_le (b : Byte) : decT4 b ≤ 165 := by
  have := b.isLt
  simp only [decT4, bcd2bin, bits_7_4, bits_3_0]; omega

/-! ### Packed digits -/

/-- The value a packed byte has as a number. -/
theorem bin2bcd_eq (v : Nat) (h : v ≤ 99) : bin2bcd v = BitVec.ofNat 8 (16 * (v / 10) + v % 10) := by
  interval_cases v <;> rfl

/-- A 24-hour hour leaves bits 7:6 clear, so MODE12 of an encoded hours byte is 0 (R104, R167). -/
theorem bin2bcd_hour_bit6 (v : Nat) (h : v ≤ 23) : (bin2bcd v)[6] = false := by
  interval_cases v <;> rfl

/-- A month leaves bit 5 clear (R170). -/
theorem bin2bcd_month_bit5 (v : Nat) (h : v ≤ 12) : (bin2bcd v)[5] = false := by
  interval_cases v <;> rfl

/-- OR-ing packed digits under a kept top bit keeps that bit and nothing else of the old byte (R104). -/
theorem merge_80 (b : Byte) (v : Nat) (h : v ≤ 59) :
    merge 0x80#8 b v &&& 0x80#8 = b &&& 0x80#8 ∧ merge 0x80#8 b v &&& 0x7F#8 = bin2bcd v := by
  unfold merge; revert b; interval_cases v <;> decide +kernel

/-- The same under two kept top bits. -/
theorem merge_C0 (b : Byte) (v : Nat) (h : v ≤ 39) :
    merge 0xC0#8 b v &&& 0xC0#8 = b &&& 0xC0#8 ∧ merge 0xC0#8 b v &&& 0x3F#8 = bin2bcd v := by
  unfold merge; revert b; interval_cases v <;> decide +kernel

/-- The hour read back from an encoded hours byte, whatever the old byte was. -/
theorem decHour_merge (b : Byte) (v : Nat) (h : v ≤ 23) : decHour (merge 0x80#8 b v) = v := by
  unfold merge; revert b; interval_cases v <;> decide +kernel

/-! ### The hours byte -/

theorem decHour_mode24 {b : Byte} (h : b.getLsbD 6 = false) : decHour b = decT2 b := by
  have h' : bit b mode12Bit = false := h
  simp only [decHour, h', decHour24]; rfl

theorem decHour_mode12 {b : Byte} (h : b.getLsbD 6 = true) : decHour b = conv12 (decT1 b) (b.getLsbD 5) := by
  have h' : bit b mode12Bit = true := h
  have h5 : (bit b pmBit == pmPolarity) = b.getLsbD 5 := by simp [bit, pmBit, pmPolarity]
  simp only [decHour, h', decHour12, h5]; rfl

/-! ### Putting a bit -/

/-- `putBit` at OSC_EN as mask and OR (R190). -/
theorem putBit_7 (v : Bool) (b : Byte) : putBit b 7 v = (b &&& 0x7F#8) ||| (if v = true then 0x80#8 else 0x00#8) := by
  revert v b; decide +kernel

/-- `putBit` at EXTOSC as mask and OR (R190). -/
theorem putBit_3 (v : Bool) (b : Byte) : putBit b 3 v = (b &&& 0xF7#8) ||| (if v = true then 0x08#8 else 0x00#8) := by
  revert v b; decide +kernel

/-! ### Validity (R108) -/

theorem daysInMonth_le (y : Int) (mo : Nat) : daysInMonth y mo ≤ 31 := by
  unfold daysInMonth
  split <;> first | omega | (split <;> omega)

/-- The ranges of the fields of a valid date and time. -/
theorem valid_ranges {y : Int} {mo d h mi s : Nat} (hv : valid y mo d h mi s = true) :
    1 ≤ mo ∧ mo ≤ 12 ∧ 1 ≤ d ∧ d ≤ 31 ∧ h ≤ 23 ∧ mi ≤ 59 ∧ s ≤ 59 := by
  have := daysInMonth_le y mo
  simp only [valid, Bool.and_eq_true, decide_eq_true_eq] at hv
  omega

/-- The year range of R162 as two inequalities. -/
theorem yearInRange_iff (y : Int) : yearInRange y = true ↔ 2000 ≤ y ∧ y ≤ 2099 := by
  simp only [yearInRange, Bool.and_eq_true, decide_eq_true_eq]
  exact Iff.rfl

/-! ### The time image -/

/-- What DECT finds is a valid date and time of the years 2000..2165 (R24). -/
theorem decodeTime_some {b : Image} {ts : Timestamp} (h : decodeTime b = some ts) :
    tsValid ts = true ∧ 2000 ≤ ts.year ∧ ts.year ≤ 2165 := by
  simp only [decodeTime] at h
  split at h
  · rename_i hv
    have hr := valid_ranges hv
    have hy := decT4_le b.year
    cases h
    refine ⟨?_, by simp [centuryBase], by simp only [centuryBase]; omega⟩
    simp only [tsValid, BitVec.toNat_ofNat]
    rw [Nat.mod_eq_of_lt (by omega), Nat.mod_eq_of_lt (by omega), Nat.mod_eq_of_lt (by omega),
      Nat.mod_eq_of_lt (by omega), Nat.mod_eq_of_lt (by omega)]
    exact hv
  · cases h

/-- The image ENCT makes of a valid timestamp selects 24-hour mode and has month bit 5 clear (R163, R170). -/
theorem encodeTime_mode {t : Timestamp} {b : Image} (h : tsValid t = true) :
    (encodeTime t b).hours.getLsbD 6 = false ∧ (encodeTime t b).month.getLsbD 5 = false := by
  have hr := valid_ranges h
  refine ⟨?_, ?_⟩
  · simp [encodeTime, merge, keepHr, bin2bcd_hour_bit6 t.hour.toNat (by omega)]
  · simp [encodeTime, merge, keepMon, bin2bcd_month_bit5 t.month.toNat (by omega)]

end Sys2Proof.Machine
end

