-- ==== Sys2Proof/Laws/Ops.lean ====
section
/-! SUPPORT. What each meaning can do, said once: a meaning that answers next has only driven the output
ports, with one of the outcomes listed here. -/

namespace Sys2Proof.Machine

open Sys2Proof.Safety

@[simp] theorem returnOk_eq (o : Outputs) (s : State) : returnOk o s = .next (s.drive o) := rfl

@[simp] theorem raise_eq (e : BlockError) (s : State) : raise e s = .next (s.drive (.error e)) := rfl

/-- The outcome of an operation as a function of its inputs alone (R20); none where it is refused (R244). -/
def outcomeOf (i : Instr) (inp : Inputs) : Option Outputs :=
  match i with
  | .dect => some (match decodeTime inp.img with
      | some ts => .dect ts
      | none => .error .decode)
  | .enct =>
    if tsValid inp.ts then
      some (if yearInRange inp.ts.year then .enct (encodeTime inp.ts inp.img) else .error .range)
    else none
  | .cfge => some (.cfge (encodeConfig inp.cfg inp.img))
  | .cfgd => some (.cfgd (decodeConfig inp.img))
  | .oscs => some (.oscs (oscRunning inp.img))
  | .reserved101 => some (.error .illegalOp)
  | .reserved110 => some (.error .illegalOp)
  | .reserved111 => some (.error .illegalOp)

/-- Everything an operation can do: drive the outcome of its inputs, or be refused. -/
theorem exec_eq (i : Instr) (s : State) :
    exec i s = match outcomeOf i s.inp with
      | some o => .next (s.drive o)
      | none => .refused .invalidTimestamp := by
  cases i <;> simp only [exec, outcomeOf, execCfge, execCfgd, execOscs, execReserved101, execReserved110,
    execReserved111, returnOk_eq, raise_eq]
  · simp only [execDect]; split <;> simp_all
  · simp only [execEnct]
    by_cases hv : tsValid s.inp.ts = true <;> by_cases hy : yearInRange s.inp.ts.year = true <;> simp [hv, hy]

/-- If an operation answers next, it has driven the outcome of its inputs and changed nothing else. -/
theorem exec_next {i : Instr} {s t : State} (h : exec i s = .next t) :
    ∃ o, outcomeOf i s.inp = some o ∧ t = s.drive o := by
  rw [exec_eq] at h
  split at h
  · rename_i o ho
    cases h
    exact ⟨o, ho, rfl⟩
  · cases h

/-- An operation with well-formed inputs has an outcome (R240). -/
theorem outcomeOf_wellFormed {i : Instr} {inp : Inputs} (h : inp.wellFormedFor i = true) :
    ∃ o, outcomeOf i inp = some o := by
  cases i <;> simp_all [outcomeOf, Inputs.wellFormedFor, Timestamp.wellFormed]

/-- The outputs an operation drives are as R24, R26 and R163 say. -/
theorem outcomeOf_fits {i : Instr} {inp : Inputs} {o : Outputs} (h : outcomeOf i inp = some o) : outputsFit o := by
  cases i <;> simp only [outcomeOf, Option.some.injEq] at h
  · split at h <;> subst h
    · rename_i ts hts
      exact decodeTime_some hts
    · exact trivial
  · by_cases hv : tsValid inp.ts = true <;> by_cases hy : yearInRange inp.ts.year = true <;> simp [hv, hy] at h <;>
      subst h
    · exact encodeTime_mode hv
    · exact trivial
  all_goals subst h; exact trivial

end Sys2Proof.Machine
end

