-- ==== Sys2Proof/Laws/PerInstr.lean ====
section
/-! SUPPORT. Statements for all instructions, made per instruction. Family `TableWord`: an operation is well
formed, its word is the number of its row of the opcode table (R80, R85), and that word decodes to it. -/

namespace Sys2Proof.Laws.TableWord

/-- The code of an operation's row, as the opcode table's "match" writes it. -/
def row : Instr → Nat
  | .dect => 0
  | .enct => 1
  | .cfge => 2
  | .cfgd => 3
  | .oscs => 4
  | .reserved101 => 5
  | .reserved110 => 6
  | .reserved111 => 7

def Statement (i : Instr) : Prop :=
  i.wellFormed = true ∧ (encode i).toNat = row i ∧ decodeTableWord 8 (row i) = some i

theorem dect : Statement .dect := by unfold Statement; decide
theorem enct : Statement .enct := by unfold Statement; decide
theorem cfge : Statement .cfge := by unfold Statement; decide
theorem cfgd : Statement .cfgd := by unfold Statement; decide
theorem oscs : Statement .oscs := by unfold Statement; decide
theorem reserved101 : Statement .reserved101 := by unfold Statement; decide
theorem reserved110 : Statement .reserved110 := by unfold Statement; decide
theorem reserved111 : Statement .reserved111 := by unfold Statement; decide

end Sys2Proof.Laws.TableWord
end

