-- ==== Sys2Proof/Laws/Session.lean ====
section
/-! SUPPORT. Everything one move of the host and one step of the machine can do, said once. -/

namespace Sys2Proof.Machine

open Sys2Proof.Safety

@[simp] theorem presentFor_eq (c : BusCall) (v : List Byte) (s : State) :
    presentFor c v s = (s.present (encode (operationOf c))
      (inputsOf c v (Config.freeImage s.draws) s.inp)).withPhase (.evaluating c) := rfl

/-- If the host takes the outputs and answers next, the sequence returns with the result of its outputs, or goes
on to its write. -/
theorem collect_next {c : BusCall} {s t : State} (h : collect c s = .next t) :
    (∃ r, t = s.returnCall r ∧ r ≠ .ok .unit ∧ r ≠ .ok .session ∧ r ≠ .ok .busHandle) ∨
    (∃ v, t = s.withPhase (.writing v) ∧ (v.length = 7 ∨ v.length = 8)) := by
  cases c <;> simp only [collect, usePort] at h
  · split at h <;> cases h
    exact .inl ⟨_, rfl, by simp⟩
  · split at h
    · cases h; exact .inl ⟨_, rfl, by simp⟩
    · split at h <;> cases h
      exact .inl ⟨_, rfl, by simp⟩
  · split at h
    · cases h; exact .inl ⟨_, rfl, by simp⟩
    · split at h <;> cases h
      exact .inr ⟨_, rfl, by simp [regsOf]⟩
  · split at h <;> cases h
    exact .inr ⟨_, rfl, by simp [regsOf]⟩

/-- If the host begins a request and answers next: it has presented an operation, moved the handle, started a
sequence, or ended one with Domain(Range) before any transaction. -/
theorem beginRequest_next {r : Request} {s t : State} (h : beginRequest r s = .next t) :
    (∃ w inp, r = .operation w inp ∧ t = s.present w inp) ∨
    (r = .call .new ∧ s.handle = .caller ∧ t = (s.withHandle .session).returnCall (.ok .session)) ∨
    (r = .call .release ∧ s.handle = .session ∧ t = (s.withHandle .caller).returnCall (.ok .busHandle)) ∨
    (∃ c, r = .call (.onBus c) ∧ s.handle = .session ∧ c.wellFormed = true ∧
      (t = s.withPhase (.reading c) ∨ t = s.returnCall .domainRange)) := by
  cases r with
  | operation w inp => cases h; exact .inl ⟨w, inp, rfl, rfl⟩
  | call c =>
    simp only [beginRequest, beginCall] at h
    split at h
    · rename_i hh; cases h; exact .inr (.inl ⟨rfl, hh, rfl⟩)
    · cases h
    · rename_i hh; cases h; exact .inr (.inr (.inl ⟨rfl, hh, rfl⟩))
    · cases h
    · rename_i c hh
      refine .inr (.inr (.inr ⟨c, rfl, hh, ?_⟩))
      cases c with
      | oscRunning => cases h; exact ⟨rfl, .inl rfl⟩
      | now => cases h; exact ⟨rfl, .inl rfl⟩
      | configureClock cfg => cases h; exact ⟨rfl, .inl rfl⟩
      | setDatetime ts =>
        simp only [beginBusCall] at h
        split at h
        · rename_i hv
          refine ⟨hv, ?_⟩
          split at h <;> cases h
          · exact .inr rfl
          · exact .inl rfl
        · cases h
    · cases h

/-- Everything one move of the host can do, by the phase the sequence has reached. -/
theorem hostStep_next {s t : State} (h : hostStep s = .next t) :
    (s.phase = .idle ∧ s.pending = [] ∧ t = s.passTime) ∨
    (∃ r rest, s.phase = .idle ∧ s.pending = r :: rest ∧ beginRequest r (s.passTime.beginRequest rest) = .next t) ∨
    (∃ c, s.phase = .reading c ∧ memRead (readSpan c).1 (readSpan c).2 c s = .next t) ∨
    (∃ c v, s.phase = .readDone c (.data v) ∧ t = presentFor c v s.passTime) ∨
    (∃ c e, s.phase = .readDone c (.failed e) ∧ t = s.passTime.returnCall (.transport e)) ∨
    (∃ c, s.phase = .evaluating c ∧ collect c s.passTime = .next t) ∨
    (∃ v, s.phase = .writing v ∧ memWrite 0x00#8 v s = .next t) ∨
    (s.phase = .writeDone .done ∧ t = s.passTime.returnCall (.ok .unit)) ∨
    (∃ e, s.phase = .writeDone (.failed e) ∧ t = s.passTime.returnCall (.transport e)) := by
  simp only [hostStep] at h
  split at h
  · rename_i hp
    split at h
    · rename_i hq; cases h; exact .inl ⟨hp, hq, rfl⟩
    · rename_i r rest hq; exact .inr (.inl ⟨r, rest, hp, hq, h⟩)
  · rename_i c hp; exact .inr (.inr (.inl ⟨c, hp, h⟩))
  · rename_i c v hp; cases h; exact .inr (.inr (.inr (.inl ⟨c, v, hp, rfl⟩)))
  · rename_i c e hp; cases h; exact .inr (.inr (.inr (.inr (.inl ⟨c, e, hp, rfl⟩))))
  · rename_i c hp; exact .inr (.inr (.inr (.inr (.inr (.inl ⟨c, hp, h⟩)))))
  · rename_i v hp; exact .inr (.inr (.inr (.inr (.inr (.inr (.inl ⟨v, hp, h⟩))))))
  · rename_i hp; cases h; exact .inr (.inr (.inr (.inr (.inr (.inr (.inr (.inl ⟨hp, rfl⟩)))))))
  · rename_i e hp; cases h; exact .inr (.inr (.inr (.inr (.inr (.inr (.inr (.inr ⟨e, hp, rfl⟩)))))))

/-- Everything a step can do: the block evaluates the operation presented, or the host moves. -/
theorem step_cases (s : State) :
    (∃ w, s.op = some w ∧ step s = exec (decodeOp w) s.passTime.takeOp) ∨ (s.op = none ∧ step s = hostStep s) := by
  cases h : s.op with
  | some w => exact .inl ⟨w, rfl, by simp only [step, h]⟩
  | none => exact .inr ⟨rfl, by simp only [step, h]⟩

end Sys2Proof.Machine
end

