-- ==== Sys2Proof/Laws/Run.lean ====
section
/-! SUPPORT. Runs: one step at a time, and the stretches that every host sequence goes through. -/

namespace Sys2Proof.Machine

open Sys2Proof.Safety

@[simp] theorem run_zero (s : State) : run 0 s = .next s := rfl

/-- A run goes on from the state its first step answers. -/
theorem run_next {s t : State} (h : step s = .next t) (k : Nat) : run (k + 1) s = run k t := by
  have h' : Sys2Proof.core.step s = .next t := h
  simp only [run, Host.Core.run, h']
  rfl

/-- If a run answers next, its first step does. -/
theorem run_succ_next {s t : State} {k : Nat} (h : run (k + 1) s = .next t) :
    ∃ u, step s = .next u ∧ run k u = .next t := by
  simp only [run, Host.Core.run] at h
  split at h
  · rename_i u hu
    exact ⟨u, hu, h⟩
  · cases h
  · cases h

/-! ### The stretches of a host sequence -/

/-- Decoding an encoded operation gives it back. -/
@[simp] theorem decodeOp_encode (i : Instr) : decodeOp (encode i) = i := by cases i <;> rfl

/-- A sequence with a valid timestamp in range begins with its read. -/
theorem beginBusCall_reading {c : BusCall} (s : State) (hw : c.wellFormed = true)
    (hy : ∀ ts, c = .setDatetime ts → 2000 ≤ ts.year ∧ ts.year ≤ 2099) :
    beginBusCall c s = .next (s.withPhase (.reading c)) := by
  cases c with
  | setDatetime ts =>
    have hr : yearInRange ts.year = true := (yearInRange_iff _).2 (hy ts rfl)
    have hv : tsValid ts = true := hw
    simp [beginBusCall, hv, hr]
  | oscRunning => rfl
  | now => rfl
  | configureClock cfg => rfl

/-- The first two steps of a sequence: it begins, and its read ends as the environment's second move has it. -/
theorem run_read {s : State} {c : BusCall} {rest : List Request} (h : Awaits c rest s)
    (hc : ∀ u, beginBusCall c u = .next (u.withPhase (.reading c))) {r : ReadReply} {bank : Image}
    (hb : busWriteRead devAddr [(readSpan c).1] (readSpan c).2 (s.moveAt 1)
      (changeAll (s.moveAt 0).changes s.bank) = some (r, bank)) :
    ∃ t, (∀ k, run (k + 2) s = run k t) ∧ t.op = none ∧ t.inp = s.inp ∧ t.bank = bank ∧ t.handle = .session ∧
      t.phase = .readDone c r ∧ t.pending = rest ∧ t.returned = s.returned ∧
      t.transactions = [.writeRead devAddr [(readSpan c).1] (readSpan c).2] ∧ ∀ k, t.moveAt k = s.moveAt (k + 2) := by
  obtain ⟨h1, h2, h3, h4⟩ := h
  have e1 : step s = .next ((s.passTime.beginRequest rest).withPhase (.reading c)) := by
    simp [step, h1, hostStep, h2, h4, beginRequest, beginCall, h3, hc]
  have e2 : step ((s.passTime.beginRequest rest).withPhase (.reading c)) =
      .next ((((s.passTime.beginRequest rest).withPhase (.reading c)).takeMove.afterTransaction
        (.writeRead devAddr [(readSpan c).1] (readSpan c).2) bank).withPhase (.readDone c r)) := by
    simp [step, h1, hostStep, memRead, hb]
  exact ⟨_, fun k => (run_next e1 _).trans (run_next e2 k), by simp [h1, h3]⟩

/-- The first four steps of a sequence whose read completes: the block has evaluated the sequence's operation
on the bytes read, over some image in the bytes that the sequence leaves open. -/
theorem run_eval {s : State} {c : BusCall} {rest : List Request} (h : Awaits c rest s)
    (hc : ∀ u, beginBusCall c u = .next (u.withPhase (.reading c))) {v : List Byte} {bank : Image}
    (hb : busWriteRead devAddr [(readSpan c).1] (readSpan c).2 (s.moveAt 1)
      (changeAll (s.moveAt 0).changes s.bank) = some (.data v, bank))
    (ho : ∀ free, ∃ o, outcomeOf (operationOf c) (inputsOf c v free s.inp) = some o) :
    ∃ t free, (∀ k, run (k + 4) s = run k t) ∧ t.op = none ∧
      outcomeOf (operationOf c) (inputsOf c v free s.inp) = some t.out ∧
      t.bank = changeAll (s.moveAt 3).changes (changeAll (s.moveAt 2).changes bank) ∧ t.handle = .session ∧
      t.phase = .evaluating c ∧ t.pending = rest ∧ t.returned = s.returned ∧
      t.transactions = [.writeRead devAddr [(readSpan c).1] (readSpan c).2] ∧ ∀ k, t.moveAt k = s.moveAt (k + 4) := by
  obtain ⟨t, hr, h1, h2, h3, h4, h5, h6, h7, h8, h9⟩ := run_read h hc hb
  obtain ⟨o, ho⟩ := ho (Config.freeImage t.passTime.draws)
  have e1 : step t = .next (presentFor c v t.passTime) := by simp [step, h1, hostStep, h5]
  have e2 : step (presentFor c v t.passTime) = .next ((presentFor c v t.passTime).passTime.takeOp.drive o) := by
    simp only [step, presentFor_eq, State.withPhase_op, State.present_op, decodeOp_encode, exec_eq, State.takeOp_inp,
      State.passTime_inp, State.withPhase_inp, State.present_inp, h2, ho]
  refine ⟨_, Config.freeImage t.passTime.draws, fun k => (hr _).trans ((run_next e1 _).trans (run_next e2 k)), by simp,
    ho, ?_⟩
  simp [h3, h4, h6, h7, h8, h9]

/-- The host takes the outputs in one step, the peripheral having made its own changes. -/
theorem run_collect {s t : State} {c : BusCall} (h1 : s.op = none) (h2 : s.phase = .evaluating c)
    (h : collect c s.passTime = .next t) (k : Nat) : run (k + 1) s = run k t :=
  run_next (by simp [step, h1, hostStep, h2, h]) k

/-- What a sequence returns after its write. -/
def resultOf : WriteReply → CallResult
  | .done => .ok .unit
  | .failed e => .transport e

/-- The last two steps of a sequence that writes: the write ends as the environment's next move has it, and the
sequence returns. -/
theorem run_write {s : State} {v : List Byte} (h1 : s.op = none) (h2 : s.phase = .writing v) {r : WriteReply}
    {bank : Image} (hb : busWrite devAddr (writeFrame 0x00#8 v) (s.moveAt 0) s.bank = some (r, bank)) :
    ∃ t, (∀ k, run (k + 2) s = run k t) ∧ t.op = none ∧ t.bank = changeAll (s.moveAt 1).changes bank ∧
      t.handle = s.handle ∧ t.phase = .idle ∧ t.pending = s.pending ∧ t.returned = resultOf r :: s.returned ∧
      t.transactions = s.transactions ++ [.write devAddr (writeFrame 0x00#8 v)] ∧
      ∀ k, t.moveAt k = s.moveAt (k + 2) := by
  have e1 : step s = .next ((s.takeMove.afterTransaction (.write devAddr (writeFrame 0x00#8 v)) bank).withPhase
      (.writeDone r)) := by simp [step, h1, hostStep, h2, memWrite, hb]
  have e2 : step ((s.takeMove.afterTransaction (.write devAddr (writeFrame 0x00#8 v)) bank).withPhase (.writeDone r)) =
      .next (((s.takeMove.afterTransaction (.write devAddr (writeFrame 0x00#8 v)) bank).withPhase
        (.writeDone r)).passTime.returnCall (resultOf r)) := by
    cases r <;> simp [step, h1, hostStep, resultOf]
  exact ⟨_, fun k => (run_next e1 _).trans (run_next e2 k), by simp [h1]⟩

end Sys2Proof.Machine
end

