-- ==== Sys2Proof/Tests/Slice0.lean ====
section
/-! SUPPORT. Tests of the model's own: expected values are the vectors of spec/95_test_vectors.md, named in
each docstring, or are worked out by hand from the rule cited. And, for every obligation with hypotheses, a
witness: a concrete state and operands that meet all of them together. -/

namespace Sys2Proof.Tests

open Sys2Proof.Machine Sys2Proof.Safety

/-! ### Helpers -/

/-- An image from its eight bytes, in address order (the notation of spec/95). -/
def image (a b c d e f g h : Byte) : Image :=
  { seconds := a, minutes := b, hours := c, weekday := d, day := e, month := f, year := g, control := h }

/-- A timestamp from its six numbers. -/
def stamp (y : Int) (mo d h mi s : Nat) : Timestamp :=
  { year := y, month := BitVec.ofNat 4 mo, day := BitVec.ofNat 5 d, hour := BitVec.ofNat 5 h,
    minute := BitVec.ofNat 6 mi, second := BitVec.ofNat 6 s }

/-- The reset state with an image on `img_in`. -/
def onImage (b : Image) : State := { State.reset with inp := { State.reset.inp with img := b } }

/-- The reset state with a timestamp and an image on the input ports. -/
def onStamp (t : Timestamp) (b : Image) : State :=
  { State.reset with inp := { State.reset.inp with img := b, ts := t } }

/-- The reset state with a clock configuration and an image on the input ports. -/
def onConfig (e : Bool) (c : ClockSource) (b : Image) : State :=
  { State.reset with inp := { State.reset.inp with img := b, cfg := { enabled := e, clkSrc := c } } }

/-- An open session on a bank, with requests pending and the environment's moves scripted. -/
def session (b : Image) (p : List Request) (env : List EnvMove) : State :=
  { State.reset with bank := b, handle := .session, pending := p, env := env }

/-- An error of the transport. -/
def someError : TransportError := { code := 0, admitted := .inl rfl }

/-- A session whose environment is scripted to change nothing is calm. -/
theorem calm_session (n : Nat) (b : Image) (p : List Request) : Calm n (session b p (List.replicate n quiet)) := by
  intro k hk
  simp [State.moveAt, session, hk]

/-- The output ports after an answer, if it is a next state. -/
def outputs : Answer → Option Outputs
  | .next s => some s.out
  | .fault _ => none
  | .refused _ => none

/-- A leap-day timestamp of 2024, from V-ENCT-1. -/
def leapDay : Timestamp := stamp 2024 2 29 13 45 7

/-- The bank at the start of program P2 of spec/95. -/
def bankP2 : Image := image 0x95#8 0x59#8 0x71#8 0x2D#8 0xC5#8 0xE9#8 0x23#8 0x47#8

/-! ### Decoding (words written out from R80) -/

theorem test_decode_dect : decodeTableWord 8 0b000 = some .dect := by decide
theorem test_decode_enct : decodeTableWord 8 0b001 = some .enct := by decide
theorem test_decode_cfge : decodeTableWord 8 0b010 = some .cfge := by decide
theorem test_decode_cfgd : decodeTableWord 8 0b011 = some .cfgd := by decide
theorem test_decode_oscs : decodeTableWord 8 0b100 = some .oscs := by decide
theorem test_decode_reserved101 : decodeTableWord 8 0b101 = some .reserved101 := by decide
theorem test_decode_reserved110 : decodeTableWord 8 0b110 = some .reserved110 := by decide
theorem test_decode_reserved111 : decodeTableWord 8 0b111 = some .reserved111 := by decide
theorem test_decode_no_byte : decodeBytes [] = .error .noWord := by rfl

/-! ### WellFormed: each check refuses an ill-formed term (R108, R111, R161) -/

theorem test_wellFormed_leap_day : leapDay.wellFormed = true := by decide
theorem test_illFormed_month_zero : (stamp 2024 0 1 0 0 0).wellFormed = false := by decide
theorem test_illFormed_month_thirteen : (stamp 2024 13 1 0 0 0).wellFormed = false := by decide
theorem test_illFormed_day_zero : (stamp 2024 1 0 0 0 0).wellFormed = false := by decide
/-- V-BCD-18. -/
theorem test_illFormed_leap_day_of_common_year : (stamp 2023 2 29 0 0 0).wellFormed = false := by decide
/-- V-BCD-19: 2000 is a leap year and 2100 is not. -/
theorem test_centuries : (stamp 2000 2 29 0 0 0).wellFormed = true ∧ (stamp 2100 2 29 0 0 0).wellFormed = false := by
  decide
/-- V-BCD-20. -/
theorem test_illFormed_april_31 : (stamp 2024 4 31 0 0 0).wellFormed = false := by decide
theorem test_illFormed_hour_24 : (stamp 2024 1 1 24 0 0).wellFormed = false := by decide
theorem test_illFormed_minute_60 : (stamp 2024 1 1 0 60 0).wellFormed = false := by decide
/-- V-BCD-21: no leap second. -/
theorem test_illFormed_second_60 : (stamp 2024 1 1 0 0 60).wellFormed = false := by decide
theorem test_illFormed_set_datetime : (Request.call (.onBus (.setDatetime (stamp 2024 2 30 0 0 0)))).wellFormed = false := by
  decide
theorem test_illFormed_enct_line :
    (Request.operation 0b001#3 (onStamp (stamp 2024 2 30 0 0 0) zeroImage).inp).wellFormed = false := by decide

/-! ### Converters (V-BCD vectors) -/

/-- V-BCD-2, V-BCD-6, V-BCD-7, V-BCD-8. -/
theorem test_decT3 : decT3 0xD9#8 = 59 ∧ decT3 0x0A#8 = 10 ∧ decT3 0x5F#8 = 65 ∧ decT3 0xFF#8 = 85 := by decide
/-- V-BCD-9, V-BCD-10, V-BCD-11, V-BCD-12. -/
theorem test_dec_widths : decT2 0xFF#8 = 45 ∧ decT1 0xFF#8 = 25 ∧ decT4 0xFF#8 = 165 ∧ decT4 0x0F#8 = 15 := by decide
/-- V-BCD-3, V-BCD-4, V-BCD-5. -/
theorem test_bin2bcd : bin2bcd 0 = 0x00#8 ∧ bin2bcd 59 = 0x59#8 ∧ bin2bcd 99 = 0x99#8 := by decide
/-- V-BCD-13 to V-BCD-17. -/
theorem test_conv12 : conv12 12 true = 12 ∧ conv12 12 false = 0 ∧ conv12 0 true = 12 ∧ conv12 11 true = 23 ∧
    conv12 13 false = 13 ∧ conv12 13 true = 25 := by decide

/-! ### The operations (V vectors) -/

/-- V-DECT-3: every ignored bit set. -/
theorem test_dect_ignored_bits :
    outputs (exec .dect (onImage (image 0xD9#8 0x80#8 0x80#8 0xFF#8 0xC1#8 0xE1#8 0x00#8 0xFF#8))) =
      some (.dect (stamp 2000 1 1 0 0 59)) := by decide
/-- V-DECT-7, 12 AM is hour 0; V-DECT-10, 11 PM is hour 23; V-DECT-14, 13 PM is no date. -/
theorem test_dect_twelve_hour :
    outputs (exec .dect (onImage (image 0 0 0x52#8 0 1 1 0x24#8 0))) = some (.dect (stamp 2024 1 1 0 0 0)) ∧
    outputs (exec .dect (onImage (image 0 0 0x71#8 0 1 1 0x24#8 0))) = some (.dect (stamp 2024 1 1 23 0 0)) ∧
    outputs (exec .dect (onImage (image 0 0 0x73#8 0 1 1 0x24#8 0))) = some (.error .decode) := by decide
/-- V-ENCT-9: alternating sentinel. -/
theorem test_enct_sentinel :
    outputs (exec .enct (onStamp (stamp 2023 10 9 9 9 9) (image 0xA5#8 0x5A#8 0xA5#8 0x5A#8 0xA5#8 0x5A#8 0xA5#8 0x5A#8))) =
      some (.enct (image 0x89#8 0x09#8 0x89#8 0x5A#8 0x89#8 0x50#8 0x23#8 0x5A#8)) := by decide
/-- V-ENCT-3 at the upper year bound; V-ENCT-7, one year above it. -/
theorem test_enct_year_bound :
    outputs (exec .enct (onStamp (stamp 2099 12 31 23 59 59) (image 0xFF#8 0xFF#8 0xFF#8 0xFF#8 0xFF#8 0xFF#8 0xFF#8 0xFF#8))) =
      some (.enct (image 0xD9#8 0xD9#8 0xA3#8 0xFF#8 0xF1#8 0xD2#8 0x99#8 0xFF#8)) ∧
    outputs (exec .enct (onStamp (stamp 2100 1 1 0 0 0) zeroImage)) = some (.error .range) := by decide
/-- V-CFGE-1. -/
theorem test_cfge_isolation :
    outputs (exec .cfge (onConfig true .externalCrystal (image 0x12#8 0x34#8 0x56#8 0x78#8 0x9A#8 0xBC#8 0xDE#8 0xFF#8))) =
      some (.cfge (image 0x92#8 0x34#8 0x56#8 0x78#8 0x9A#8 0xBC#8 0xDE#8 0xF7#8)) := by decide
/-- V-CFGE-2. -/
theorem test_cfge_other_way :
    outputs (exec .cfge (onConfig false .externalClock (image 0x80#8 0 0 0 0 0 0 0))) =
      some (.cfge (image 0 0 0 0 0 0 0 0x08#8)) := by decide
/-- V-CFGD-1 and V-CFGD-2. -/
theorem test_cfgd :
    outputs (exec .cfgd (onImage (image 0x80#8 0 0 0 0 0 0 0x08#8))) =
      some (.cfgd { enabled := true, clkSrc := .externalClock }) ∧
    outputs (exec .cfgd (onImage (image 0x7F#8 0 0 0 0 0 0 0xF7#8))) =
      some (.cfgd { enabled := false, clkSrc := .externalCrystal }) := by decide
/-- V-OSCS-1 and V-OSCS-3. -/
theorem test_oscs :
    outputs (exec .oscs (onImage (image 0 0 0 0x20#8 0 0 0 0))) = some (.oscs true) ∧
    outputs (exec .oscs (onImage (image 0x80#8 0 0 0xDF#8 0 0 0 0))) = some (.oscs false) := by decide
/-- V-RSV-1, V-RSV-2, V-RSV-3, each as the first operation after reset. -/
theorem test_reserved :
    outputs (step (State.reset.withFetchWord 8 5)) = some (.error .illegalOp) ∧
    outputs (step (State.reset.withFetchWord 8 6)) = some (.error .illegalOp) ∧
    outputs (step (State.reset.withFetchWord 8 7)) = some (.error .illegalOp) := by decide
/-- DECT and ENCT as the first operation after reset: V-DECT-4 and V-ENCT-2, on the input ports of log entry 1. -/
theorem test_first_after_reset :
    outputs (step (State.reset.withFetchWord 8 0)) = some (.error .decode) ∧
    outputs (step (State.reset.withFetchWord 8 1)) = some (.enct (image 0 0 0 0 1 1 0 0)) := by decide

/-! ### The bus and the host -/

/-- Program P1, step 2: the frame of CONFIGURE_CLOCK writes all eight registers (R55, R215). -/
theorem test_configure_frame :
    busWrite 0x6F#7 [0x00#8, 0x80#8, 0, 0, 0, 0, 0, 0, 0] quiet zeroImage =
      some (.done, image 0x80#8 0 0 0 0 0 0 0) := by rfl
/-- Program P2, step 3: the frame of SET_DATETIME leaves register 0x07 (R213). -/
theorem test_set_datetime_frame :
    busWrite 0x6F#7 [0x00#8, 0x80#8, 0x00#8, 0x00#8, 0x2D#8, 0xC6#8, 0xC9#8, 0x23#8] quiet bankP2 =
      some (.done, image 0x80#8 0 0 0x2D#8 0xC6#8 0xC9#8 0x23#8 0x47#8) := by rfl
/-- A failed write that updates registers 0x00 and 0x02 only (R60). -/
theorem test_partial_write :
    busWrite 0x6F#7 [0x00#8, 0x01#8, 0x02#8, 0x03#8, 0x04#8, 0x05#8, 0x06#8, 0x07#8] (failing someError 0x05#8) bankP2 =
      some (.failed someError, image 0x01#8 0x59#8 0x03#8 0x2D#8 0xC5#8 0xE9#8 0x23#8 0x47#8) := by rfl
/-- Program P2, step 1, its read: one byte at register 0x03. -/
theorem test_osc_running_read : busWriteRead 0x6F#7 [0x03#8] 1 quiet bankP2 = some (.data [0x2D#8], bankP2) := by rfl

/-! ### Witnesses: the hypotheses of the obligations can be met -/

theorem witness_StepRunsThePresentedOperation :
    (State.reset.withFetchWord 8 7).op = some 0b111#3 ∧ 3 ≤ 8 := by decide
theorem witness_BinaryToBcdPacksDigits : (99 : Nat) ≤ 99 := by decide
theorem witness_PackedDigitsLeaveKeptBitsClear : (59 : Nat) ≤ 59 ∧ (39 : Nat) ≤ 39 ∧ (19 : Nat) ≤ 19 := by decide
theorem witness_BcdRoundTripUnderKeptBits :
    decT3 ((0xFF#8 &&& 0x80#8) ||| bin2bcd 59) = 59 ∧ decT2 ((0xFF#8 &&& 0xC0#8) ||| bin2bcd 39) = 39 ∧
    decT1 ((0xFF#8 &&& 0xE0#8) ||| bin2bcd 19) = 19 ∧ decT4 (bin2bcd 99) = 99 := by decide
theorem witness_TwelveHourConversion : (11 : Nat) ≠ 12 ∧ (13 : Nat) ≠ 12 := by decide
/-- Both hour modes: 24-hour 23, and 12-hour AM 12. -/
theorem witness_DectDecodesFieldsInBothModes :
    valid (2000 + (decT4 0x99#8 : Int)) 12 31 (decHour 0x23#8) 59 59 = true ∧
    valid (2000 + (decT4 0x24#8 : Int)) 1 1 (decHour 0x52#8) 0 0 = true := by decide
theorem witness_DectDecodesFieldsInTwentyFourHourMode :
    (image 0x59#8 0x59#8 0x23#8 0 0x31#8 0x12#8 0x99#8 0).hours.getLsbD 6 = false ∧ valid 2099 12 31 23 59 59 = true := by
  decide
theorem witness_DectConvertsTwelveHourMode :
    (image 0 0 0x72#8 0 1 1 0x24#8 0).hours.getLsbD 6 = true ∧ valid 2024 1 1 12 0 0 = true := by decide
theorem witness_DectRejectsWhatIsNoDate :
    valid (2000 + (decT4 0x23#8 : Int)) (decT1 0x02#8) (decT2 0x29#8) (decHour 0#8) (decT3 0#8) (decT3 0#8) = false ∧
    valid (2000 + (decT4 0x24#8 : Int)) (decT1 0x02#8) (decT2 0x29#8) (decHour 0#8) (decT3 0#8) (decT3 0#8) = true := by
  decide
theorem witness_DectResultIsCanonical :
    ∃ t ts, exec .dect (onImage (image 0x59#8 0x59#8 0x23#8 0 0x31#8 0x12#8 0x99#8 0)) = .next t ∧ readTsOut t.out = .ok ts :=
  ⟨_, stamp 2099 12 31 23 59 59, rfl, by rfl⟩
theorem witness_DectIgnoresBitsOutsideTheFields :
    0xD9#8 &&& 0x7F#8 = 0x59#8 &&& 0x7F#8 ∧ 0xC1#8 &&& 0x3F#8 = 0x01#8 &&& 0x3F#8 ∧ 0xE1#8 &&& 0x1F#8 = 0x01#8 &&& 0x1F#8 := by
  decide
theorem witness_EnctWritesEveryRegister :
    tsValid (stamp 2000 1 1 0 0 0) = true ∧ tsValid (stamp 2099 12 31 23 59 59) = true ∧ 2000 ≤ (stamp 2000 1 1 0 0 0).year ∧
    (stamp 2099 12 31 23 59 59).year ≤ 2099 := by decide
theorem witness_EnctRejectsYearOutOfRange :
    tsValid (stamp 1999 12 31 23 59 59) = true ∧ (stamp 1999 12 31 23 59 59).year < 2000 ∧
    tsValid (stamp 2100 1 1 0 0 0) = true ∧ 2099 < (stamp 2100 1 1 0 0 0).year := by decide
theorem witness_EnctRefusesInvalidTimestamp : tsValid (onStamp (stamp 2023 2 29 0 0 0) zeroImage).inp.ts = false := by decide
/-- Two runs of ENCT on one timestamp and two images (V-ENCT-1, V-ENCT-8), as both clauses need. -/
theorem witness_EnctPreservesUnrelatedBits :
    ∃ t t' img img', exec .enct (onStamp leapDay (image 0x80#8 0 0 0x2A#8 0xC0#8 0xC0#8 0 0x5B#8)) = .next t ∧
      exec .enct (onStamp leapDay (image 0x7F#8 0x7F#8 0x7F#8 0x7F#8 0x3F#8 0x3F#8 0xFF#8 0)) = .next t' ∧
      readImgOut t.out = .ok img ∧ readImgOut t'.out = .ok img' :=
  ⟨_, _, _, _, rfl, rfl, rfl, rfl⟩
theorem witness_EnctSwitchesToTwentyFourHourMode :
    ∃ t, exec .enct (onStamp (stamp 2024 6 15 12 0 0) (image 0 0 0x72#8 5 0 0 0 0)) = .next t ∧
      readImgOut t.out = .ok (image 0 0 0x12#8 5 0x15#8 0x06#8 0x24#8 0) := ⟨_, rfl, by rfl⟩
theorem witness_DectOfEnctIsIdentity : tsValid leapDay = true ∧ 2000 ≤ leapDay.year ∧ leapDay.year ≤ 2099 := by decide
theorem witness_CfgeLeavesEveryOtherBit :
    ∃ t img, exec .cfge (onConfig true .externalCrystal bankP2) = .next t ∧ readImgOut t.out = .ok img :=
  ⟨_, _, rfl, rfl⟩
theorem witness_ClockConfigRoundTrip :
    (∃ t img u, exec .cfge (onConfig true .externalClock bankP2) = .next t ∧ readImgOut t.out = .ok img ∧
      exec .cfgd { t with inp := { t.inp with img := img } } = .next u) ∧
    (∃ t cfg u, exec .cfgd (onImage bankP2) = .next t ∧ readCfgOut t.out = .ok cfg ∧
      exec .cfge { t with inp := { t.inp with cfg := cfg } } = .next u) :=
  ⟨⟨_, _, _, rfl, rfl, rfl⟩, ⟨_, _, _, rfl, rfl, rfl⟩⟩
theorem witness_OscsIsIndependentOfTheEnableBit :
    (image 0 0 0 0x20#8 0 0 0 0).weekday.getLsbD 5 = (image 0x80#8 0 0 0xFF#8 0 0 0 0).weekday.getLsbD 5 := by decide
theorem witness_OperationsComplete :
    Instr.enct.wellFormed = true ∧ (onStamp leapDay zeroImage).inp.wellFormedFor .enct = true ∧
    (onStamp (stamp 2023 2 29 0 0 0) zeroImage).inp.wellFormedFor .enct = false := by decide
theorem witness_OperationsChangeOnlyTheOutputs : ∃ t, exec .oscs (onImage bankP2) = .next t := ⟨_, rfl⟩
/-- The two clauses: a next state and a refusal. -/
theorem witness_OperationsDependOnlyOnTheInputs :
    (onImage bankP2).inp = { onImage bankP2 with bank := zeroImage }.inp ∧ (∃ t, exec .oscs (onImage bankP2) = .next t) ∧
    exec .enct (onStamp (stamp 2023 2 29 0 0 0) zeroImage) = .refused .invalidTimestamp := ⟨rfl, ⟨_, rfl⟩, by rfl⟩
theorem witness_OperationsReadOnlyTheirPorts :
    (onStamp leapDay bankP2).inp.img = (onImage bankP2).inp.img ∧
    (∃ t, exec .dect { State.reset with inp := (onStamp leapDay bankP2).inp } = .next t) ∧
    exec .enct { State.reset with inp := (onStamp (stamp 2023 2 29 0 0 0) zeroImage).inp } = .refused .invalidTimestamp :=
  ⟨rfl, ⟨_, rfl⟩, by rfl⟩
theorem witness_OperationsDriveTheirPorts :
    ∃ t, exec .cfgd (onImage bankP2) = .next t ∧ readStatus t.out = .ok 0#2 := ⟨_, rfl, rfl⟩
/-- The three errors. -/
theorem witness_ErrorsDriveNoDataPort :
    (∃ t, exec .dect (onImage zeroImage) = .next t ∧ t.out = .error .decode) ∧
    (∃ t, exec .enct (onStamp (stamp 2100 1 1 0 0 0) zeroImage) = .next t ∧ t.out = .error .range) ∧
    (∃ t, exec .reserved110 (onImage zeroImage) = .next t ∧ t.out = .error .illegalOp) :=
  ⟨⟨_, rfl, by rfl⟩, ⟨_, rfl, by rfl⟩, ⟨_, rfl, by rfl⟩⟩
theorem witness_FirstOperationAfterResetRuns :
    (onStamp leapDay zeroImage).inp.wellFormedFor (decodeOp 0b001#3) = true := by decide
theorem witness_QuietReadReturnsTheRegisters : (0x03#8 = 0x03#8 ∧ 1 = 1) ∨ (0x03#8 = 0x00#8 ∧ (1 = 7 ∨ 1 = 8)) := by decide
theorem witness_ReadsHaveNoSideEffect :
    busWriteRead 0x6F#7 [0x03#8] 1 quiet bankP2 = some (.data [0x2D#8], bankP2) := by rfl
theorem witness_CompletedWriteUpdatesTheFrame :
    ∃ bank', quiet.failure = none ∧ quiet.changes = [] ∧
      busWrite 0x6F#7 (0x00#8 :: [0x80#8, 0, 0, 0, 0, 0, 0, 0]) quiet zeroImage = some (.done, bank') := ⟨_, rfl, rfl, by rfl⟩
theorem witness_FailedWriteUpdatesAnySubset :
    (failing someError 0x05#8).failure = some someError ∧
    (∃ bank', busWrite 0x6F#7 (0x00#8 :: [0x01#8, 0, 0, 0, 0, 0, 0]) (failing someError 0x05#8) bankP2 =
      some (.failed someError, bank')) ∧ [0x01#8, 0, 0, 0, 0, 0, 0].length = 7 := ⟨rfl, ⟨_, by rfl⟩, rfl⟩
/-- A read of six bytes, a write from 0x01, and a write of six bytes are none of R59's. -/
theorem witness_OtherTransactionsAreRefused :
    ¬((0x00#8 = 0x03#8 ∧ 6 = 1) ∨ (0x00#8 = 0x00#8 ∧ (6 = 7 ∨ 6 = 8))) ∧ ¬(0x01#8 = 0x00#8 ∧ (7 = 7 ∨ 7 = 8)) ∧
    ¬(0x00#8 = 0x00#8 ∧ ([0x00#8, 0, 0, 0, 0, 0].length = 7 ∨ [0x00#8, 0, 0, 0, 0, 0].length = 8)) := by decide
theorem witness_NewAndReleaseMoveTheHandle :
    (∃ s : State, s.op = none ∧ s.phase = .idle ∧ s.handle = .caller ∧ s.pending = [.call .new]) ∧
    (∃ s : State, s.op = none ∧ s.phase = .idle ∧ s.handle = .session ∧ s.pending = [.call .release]) :=
  ⟨⟨{ State.reset with pending := [.call .new] }, rfl, rfl, rfl, rfl⟩, ⟨session bankP2 [.call .release] [], rfl, rfl, rfl, rfl⟩⟩
theorem witness_OscRunningReturnsTheStatusBit :
    ∃ s, Awaits .oscRunning [] s ∧ Calm 5 s :=
  ⟨session bankP2 [.call (.onBus .oscRunning)] _, ⟨rfl, rfl, rfl, rfl⟩, calm_session 5 _ _⟩
/-- The bank of P2 decodes; the zero bank does not: one witness for each last clause. -/
theorem witness_NowReturnsTheDecodedTime :
    (∃ s u ts, Awaits .now [] s ∧ Calm 5 s ∧
      exec .dect { s with inp := { s.inp with img := s.bank } } = .next u ∧ readTsOut u.out = .ok ts) ∧
    (∃ s u, Awaits .now [] s ∧ Calm 5 s ∧
      exec .dect { s with inp := { s.inp with img := s.bank } } = .next u ∧ u.out = .error .decode) :=
  ⟨⟨session bankP2 [.call (.onBus .now)] _, _, stamp 2023 9 5 23 59 15, ⟨rfl, rfl, rfl, rfl⟩, calm_session 5 _ _, rfl, by rfl⟩,
   ⟨session zeroImage [.call (.onBus .now)] _, _, ⟨rfl, rfl, rfl, rfl⟩, calm_session 5 _ _, rfl, by rfl⟩⟩
theorem witness_SetDatetimeWritesTheEncodedImage :
    ∃ s u img, Awaits (.setDatetime leapDay) [] s ∧ Calm 7 s ∧
      exec .enct { s with inp := { s.inp with img := s.bank, ts := leapDay } } = .next u ∧ readImgOut u.out = .ok img :=
  ⟨session bankP2 [.call (.onBus (.setDatetime leapDay))] _, _, _, ⟨rfl, rfl, rfl, rfl⟩, calm_session 7 _ _, rfl, rfl⟩
theorem witness_SetDatetimeRangeErrorWritesNothing :
    ∃ s, Awaits (.setDatetime (stamp 2100 1 1 0 0 0)) [] s ∧ Calm 5 s ∧ tsValid (stamp 2100 1 1 0 0 0) = true ∧
      2099 < (stamp 2100 1 1 0 0 0).year :=
  ⟨session bankP2 [.call (.onBus (.setDatetime (stamp 2100 1 1 0 0 0)))] _, ⟨rfl, rfl, rfl, rfl⟩, calm_session 5 _ _,
    by decide, by decide⟩
theorem witness_ConfigureClockWritesBackTheSpan :
    ∃ s u img, Awaits (.configureClock ⟨true, .externalCrystal⟩) [] s ∧ Calm 7 s ∧
      exec .cfge { s with inp := { s.inp with img := s.bank, cfg := ⟨true, .externalCrystal⟩ } } = .next u ∧
      readImgOut u.out = .ok img :=
  ⟨session bankP2 [.call (.onBus (.configureClock ⟨true, .externalCrystal⟩))] _, _, _, ⟨rfl, rfl, rfl, rfl⟩,
    calm_session 7 _ _, rfl, rfl⟩
theorem witness_NowAfterSetDatetimeReturnsTheTimeSet :
    ∃ s, Awaits (.setDatetime leapDay) [.call (.onBus .now)] s ∧ Calm 12 s ∧ tsValid leapDay = true ∧
      2000 ≤ leapDay.year ∧ leapDay.year ≤ 2099 :=
  ⟨session bankP2 [.call (.onBus (.setDatetime leapDay)), .call (.onBus .now)] _, ⟨rfl, rfl, rfl, rfl⟩,
    calm_session 12 _ _, by decide, by decide, by decide⟩
theorem witness_InitialisationOrderDoesNotMatter :
    ∃ s : State, s.op = none ∧ s.phase = .idle ∧ s.handle = .session ∧ Calm 14 s ∧
      tsValid leapDay = true ∧ 2000 ≤ leapDay.year ∧ leapDay.year ≤ 2099 :=
  ⟨session bankP2 [] _, rfl, rfl, rfl, calm_session 14 _ _, by decide, by decide, by decide⟩
/-- A run of a whole sequence whose write, the sixth step, fails. -/
theorem witness_ConfigureClockKeepsUnmodelledBits :
    ∃ s t, Awaits (.configureClock ⟨true, .externalCrystal⟩) [] s ∧ (s.moveAt 1).failure = none ∧
      (s.moveAt 5).failure = some someError ∧ run 7 s = .next t :=
  ⟨session bankP2 [.call (.onBus (.configureClock ⟨true, .externalCrystal⟩))] [quiet, quiet, quiet, quiet, quiet, failing someError 0x05#8],
    _, ⟨rfl, rfl, rfl, rfl⟩, rfl, rfl, rfl⟩
/-- A write that completes, and one that fails. -/
theorem witness_SetDatetimeKeepsUnrelatedBits :
    2000 ≤ leapDay.year ∧ leapDay.year ≤ 2099 ∧
    (∃ s t, Awaits (.setDatetime leapDay) [] s ∧ (s.moveAt 1).failure = none ∧ (s.moveAt 5).failure = none ∧
      run 7 s = .next t) ∧
    (∃ s t, Awaits (.setDatetime leapDay) [] s ∧ (s.moveAt 1).failure = none ∧
      (s.moveAt 5).failure = some someError ∧ run 7 s = .next t) :=
  ⟨by decide, by decide,
   ⟨session bankP2 [.call (.onBus (.setDatetime leapDay))] [quiet, quiet, quiet, quiet, quiet, quiet],
    _, ⟨rfl, rfl, rfl, rfl⟩, rfl, rfl, rfl⟩,
   ⟨session bankP2 [.call (.onBus (.setDatetime leapDay))] [quiet, quiet, quiet, quiet, quiet, failing someError 0x05#8],
    _, ⟨rfl, rfl, rfl, rfl⟩, rfl, rfl, rfl⟩⟩
theorem witness_ReadErrorEndsTheSequence :
    ∃ s, Awaits (.setDatetime leapDay) [] s ∧ (s.moveAt 1).failure = some someError ∧
      (BusCall.setDatetime leapDay).wellFormed = true ∧ 2000 ≤ leapDay.year ∧ leapDay.year ≤ 2099 ∧
      ∀ k, k < 3 → (s.moveAt k).changes = [] :=
  ⟨session bankP2 [.call (.onBus (.setDatetime leapDay))] [quiet, failing someError 0#8, quiet], ⟨rfl, rfl, rfl, rfl⟩, rfl,
    by decide, by decide, by decide, fun k hk => by interval_cases k <;> rfl⟩
theorem witness_WriteErrorEndsTheSequence :
    (∃ s, Awaits (.configureClock ⟨true, .externalCrystal⟩) [] s ∧ (s.moveAt 1).failure = none ∧
      (s.moveAt 5).failure = some someError) ∧
    (∃ s, Awaits (.setDatetime leapDay) [] s ∧ (s.moveAt 1).failure = none ∧ (s.moveAt 5).failure = some someError ∧
      tsValid leapDay = true ∧ 2000 ≤ leapDay.year ∧ leapDay.year ≤ 2099) :=
  ⟨⟨session bankP2 [.call (.onBus (.configureClock ⟨true, .externalCrystal⟩))]
      [quiet, quiet, quiet, quiet, quiet, failing someError 0xFF#8], ⟨rfl, rfl, rfl, rfl⟩, rfl, rfl⟩,
   ⟨session bankP2 [.call (.onBus (.setDatetime leapDay))] [quiet, quiet, quiet, quiet, quiet, failing someError 0#8],
      ⟨rfl, rfl, rfl, rfl⟩, rfl, rfl, by decide, by decide, by decide⟩⟩
/-- A state in the middle of a sequence that meets the invariant, and its next state. -/
theorem witness_StepKeepsTheInvariant :
    ∃ s t, Invariant s ∧ s.phase = .reading .now ∧ step s = .next t :=
  ⟨{ session bankP2 [] [quiet] with phase := .reading .now }, _, ⟨fun _ => rfl, rfl, trivial⟩, rfl, rfl⟩
/-- The results that a step can return: NEW's, OSC_RUNNING's, NOW's two, a range error before the read, the
unit of a write, and a transport error. -/
theorem witness_SequencesPerformAtMostTwoTransactions :
    (∃ s t, Invariant s ∧ step s = .next t ∧ t.returned = .ok .session :: s.returned) ∧
    (∃ s t, Invariant s ∧ step s = .next t ∧ t.returned = .ok (.running true) :: s.returned) ∧
    (∃ s t, Invariant s ∧ step s = .next t ∧ t.returned = .ok (.timestamp leapDay) :: s.returned) ∧
    (∃ s t, Invariant s ∧ step s = .next t ∧ t.returned = .domainDecode :: s.returned) ∧
    (∃ s t, Invariant s ∧ step s = .next t ∧ t.returned = .domainRange :: s.returned) ∧
    (∃ s t, Invariant s ∧ step s = .next t ∧ t.returned = .ok .unit :: s.returned) ∧
    (∃ s t, Invariant s ∧ step s = .next t ∧ t.returned = .transport someError :: s.returned) := by
  have read : BusRequest := .writeRead devAddr [0x00#8] 7
  refine ⟨⟨{ State.reset with pending := [.call .new] }, _, ⟨fun h => absurd rfl h, Nat.zero_le _, trivial⟩, rfl, rfl⟩,
    ⟨{ session bankP2 [] [] with phase := .evaluating .oscRunning, out := .oscs true, transactions := [read] }, _,
      ⟨fun _ => rfl, rfl, trivial⟩, rfl, rfl⟩,
    ⟨{ session bankP2 [] [] with phase := .evaluating .now, out := .dect leapDay, transactions := [read] }, _,
      ⟨fun _ => rfl, rfl, by decide, by decide, by decide⟩, rfl, rfl⟩,
    ⟨{ session bankP2 [] [] with phase := .evaluating .now, out := .error .decode, transactions := [read] }, _,
      ⟨fun _ => rfl, rfl, trivial⟩, rfl, rfl⟩,
    ⟨{ session bankP2 [] [] with phase := .evaluating (.setDatetime leapDay), out := .error .range, transactions := [read] }, _,
      ⟨fun _ => rfl, rfl, trivial⟩, rfl, rfl⟩,
    ⟨{ session bankP2 [] [] with phase := .writeDone .done, transactions := [read, read] }, _,
      ⟨fun _ => rfl, rfl, trivial⟩, rfl, rfl⟩,
    ⟨{ session bankP2 [] [] with phase := .writeDone (.failed someError), transactions := [read, read] }, _,
      ⟨fun _ => rfl, rfl, trivial⟩, rfl, rfl⟩⟩
theorem witness_OnlyWritesChangeTheStableBank :
    (∃ t, step (onImage bankP2) = .next t) ∧
    (∃ s t, step s = .next t ∧ s.op = none ∧ ∃ v, s.phase = .writing v) :=
  ⟨⟨_, rfl⟩, ⟨{ session bankP2 [] [quiet] with phase := .writing [0x01#8, 0, 0, 0, 0, 0, 0] }, _, rfl, rfl, _, rfl⟩⟩
/-- An evaluation, and a host move that uses no bus: one witness for each way to meet the first clause. -/
theorem witness_PeripheralMayChangeAtAnyTime :
    (∃ t, step { onImage bankP2 with op := some 0b100#3 } = .next t) ∧
    (∃ t, step (session bankP2 [.call .release] []) = .next t ∧
      (∀ c, (session bankP2 [.call .release] []).phase ≠ .reading c) ∧
      ∀ v, (session bankP2 [.call .release] []).phase ≠ .writing v) ∧
    stable bankP2 = stable bankP2 :=
  ⟨⟨_, rfl⟩, ⟨_, rfl, ⟨by simp [session, State.reset], by simp [session, State.reset]⟩⟩, rfl⟩
/-- A program that initialises the device and reads the time back, from reset (program P1 of spec/95). -/
theorem witness_LegalProgramsStartRunning :
    legal .caller [.call .new, .call (.onBus .now), .call (.onBus (.configureClock ⟨true, .externalCrystal⟩)),
      .call (.onBus (.setDatetime leapDay)), .call (.onBus .now), .call (.onBus .oscRunning), .call .release] = true := by
  decide
theorem witness_RunningMachinesAreSafe :
    Running (session bankP2 [.call (.onBus (.setDatetime leapDay)), .call .release] []) :=
  ⟨fun _ h => (by cases h), trivial, fun h => absurd rfl h, by decide⟩

end Sys2Proof.Tests
end

section
/-! SUPPORT. The presented operation (family 00_scope): a step with a word on the `op` port is one evaluation,
and `withFetchWord` puts a word there and touches nothing else. -/

namespace Sys2Proof.Machine

/-- With a word on the `op` port, a step evaluates the operation the word decodes to. -/
theorem step_of_op_eq_some {s : State} {w : OpWord} (h : s.op = some w) :
    step s = exec (decodeOp w) s.passTime.takeOp := by
  simp only [step, h]

theorem State.withFetchWord_op (s : State) {nbits : Nat} (w : Nat) (h : 3 ≤ nbits) :
    (s.withFetchWord nbits w).op = some (BitVec.ofNat 3 w) :=
  if_neg (Nat.not_lt.mpr h)

/-- The evaluation of a presented word starts from the state it would start from without the presenting: the
`op` port is all that `withFetchWord` sets, and the evaluation takes the word off again. -/
@[simp] theorem State.withFetchWord_passTime_takeOp (s : State) (nbits w : Nat) :
    (s.withFetchWord nbits w).passTime.takeOp = s.passTime.takeOp := rfl

/-- Settles O3: the word on the port decides the step, and presenting a word leaves no other trace. -/
theorem stepRunsThePresentedOperation : Obligations.StepRunsThePresentedOperation := by
  refine ⟨fun s w hop => step_of_op_eq_some hop, fun s nbits w hbits => ?_⟩
  calc step (s.withFetchWord nbits w)
      = exec (decodeOp (BitVec.ofNat 3 w)) (s.withFetchWord nbits w).passTime.takeOp :=
        step_of_op_eq_some (s.withFetchWord_op w hbits)
    _ = exec (decodeOp (BitVec.ofNat 3 w)) s.passTime.takeOp := by
        rw [State.withFetchWord_passTime_takeOp]

end Sys2Proof.Machine
end

section
/-! SUPPORT. All operations (family 10_state): what an outcome is when its status is OK, and how an evaluation
follows from the outcome of its inputs. -/

namespace Sys2Proof.Machine

open Sys2Proof.Safety

/-- An operation whose inputs have an outcome drives it (R240). -/
theorem exec_of_outcomeOf_some {i : Instr} {s : State} {o : Outputs} (h : outcomeOf i s.inp = some o) :
    exec i s = .next (s.drive o) := by
  simp only [exec_eq, h]

/-- An operation whose inputs have no outcome is refused (R244). -/
theorem exec_of_outcomeOf_none {i : Instr} {s : State} (h : outcomeOf i s.inp = none) :
    exec i s = .refused .invalidTimestamp := by
  simp only [exec_eq, h]

/-- Settles O30: by `exec_next` an evaluation only drives the output ports. -/
theorem operationsChangeOnlyTheOutputs : Obligations.OperationsChangeOnlyTheOutputs := by
  intro i s t h
  obtain ⟨o, -, rfl⟩ := exec_next h
  exact ⟨rfl, rfl, rfl, rfl, rfl, rfl, rfl, rfl, rfl, fun _ => rfl⟩

/-- Settles O31: both evaluations are decided by `outcomeOf` of the same inputs. -/
theorem operationsDependOnlyOnTheInputs : Obligations.OperationsDependOnlyOnTheInputs := by
  intro i s s' hinp
  cases ho : outcomeOf i s.inp with
  | some o =>
    rw [exec_of_outcomeOf_some ho, exec_of_outcomeOf_some (hinp ▸ ho)]
    exact ⟨fun t h => by cases h; rfl, fun r h => by cases h⟩
  | none =>
    rw [exec_of_outcomeOf_none ho, exec_of_outcomeOf_none (hinp ▸ ho)]
    exact ⟨fun t h => (by cases h), fun r h => h⟩

/-- The `ts_out` port carries a timestamp exactly after a DECT that found one (R24, R25). -/
theorem readTsOut_eq_ok_iff {o : Outputs} {ts : Timestamp} : readTsOut o = .ok ts ↔ o = .dect ts := by
  cases o <;> simp [readTsOut]

/-- Settles O14: the driven timestamp fits by `outcomeOf_fits`, and a valid one has an hour of at most 23. -/
theorem dectResultIsCanonical : Obligations.DectResultIsCanonical := by
  intro s t ts hexec hts
  obtain ⟨o, ho, rfl⟩ := exec_next hexec
  obtain rfl : o = .dect ts := readTsOut_eq_ok_iff.1 hts
  obtain ⟨hvalid, hmin, hmax⟩ := outcomeOf_fits ho
  obtain ⟨-, -, -, -, hhour, -, -⟩ := valid_ranges hvalid
  exact ⟨hvalid, hhour, hmin, hmax⟩

/-- With status OK, the outcome is the one of the operation's own row (R81). -/
theorem outcomeOf_statusOk {i : Instr} {inp : Inputs} {o : Outputs} (ho : outcomeOf i inp = some o)
    (hok : readStatus o = .ok 0#2) :
    (i = .dect ∧ ∃ ts, o = .dect ts) ∨ (i = .enct ∧ ∃ img, o = .enct img) ∨ (i = .cfge ∧ ∃ img, o = .cfge img) ∨
    (i = .cfgd ∧ ∃ cfg, o = .cfgd cfg) ∨ (i = .oscs ∧ ∃ b, o = .oscs b) := by
  have no_error (e : BlockError) : o ≠ .error e := by
    rintro rfl
    cases e <;> cases hok
  cases i <;> simp only [outcomeOf, Option.some.injEq] at ho
  case dect =>
    split at ho
    · exact .inl ⟨rfl, _, ho.symm⟩
    · exact absurd ho.symm (no_error _)
  case enct =>
    split at ho
    · rw [Option.some.injEq] at ho
      split at ho
      · exact .inr (.inl ⟨rfl, _, ho.symm⟩)
      · exact absurd ho.symm (no_error _)
    · cases ho
  case cfge => exact .inr (.inr (.inl ⟨rfl, _, ho.symm⟩))
  case cfgd => exact .inr (.inr (.inr (.inl ⟨rfl, _, ho.symm⟩)))
  case oscs => exact .inr (.inr (.inr (.inr ⟨rfl, _, ho.symm⟩)))
  all_goals exact absurd ho.symm (no_error _)

/-- Settles O33: by `outcomeOf_statusOk` the outcome is of the operation's own row, and each row drives its port. -/
theorem operationsDriveTheirPorts : Obligations.OperationsDriveTheirPorts := by
  intro i s t hexec hok
  obtain ⟨o, ho, rfl⟩ := exec_next hexec
  obtain ⟨rfl, _, rfl⟩ | ⟨rfl, _, rfl⟩ | ⟨rfl, _, rfl⟩ | ⟨rfl, _, rfl⟩ | ⟨rfl, _, rfl⟩ := outcomeOf_statusOk ho hok <;>
    simp [readTsOut, readImgOut, readCfgOut, readOscRun]

end Sys2Proof.Machine
end

section
/-! SUPPORT. The peripheral and the bank (family 10_state): which bits a read answers, how the changes made
between its bytes show in it, and what a step without a transaction does to the bank. -/

namespace Sys2Proof.Machine

open Sys2Proof.Safety

/-! ### The stable bits of the bytes read (R61) -/

/-- A register whose stable bits are those of the base leaves the stable bits of the base when it is put there. -/
theorem stable_setRegAt_getD {a : Nat} {x : Byte} {b base : Image} (hb : stable b = stable base)
    (hx : regAt b a = some x) : stable ((setRegAt base a x).getD base) = stable base := by
  simp only [stable, Image.mk.injEq] at hb ⊢
  unfold regAt at hx
  split at hx <;> cases hx <;> simp [setRegAt, hb]

/-- The bytes a burst reads agree with the bank in its stable bits. -/
theorem stable_placeAt_of_readBurst {a n : Nat} {cs : List Image} {b b' base : Image} {v : List Byte}
    (h : readBurst a n cs b = some (v, b')) (hb : stable b = stable base) :
    stable (placeAt a v base) = stable base := by
  induction n generalizing a cs b v base with
  | zero =>
    simp only [readBurst, Option.some.injEq, Prod.mk.injEq] at h
    obtain ⟨rfl, rfl⟩ := h
    rfl
  | succ n ih =>
    simp only [readBurst] at h
    split at h
    · rename_i x v' b'' hx hrest
      simp only [Option.some.injEq, Prod.mk.injEq] at h
      obtain ⟨rfl, rfl⟩ := h
      have hchanged := (stable_changeOnce cs b).trans hb
      have hput := stable_setRegAt_getD hchanged hx
      have hplace := ih hrest (hchanged.trans hput.symm)
      rw [placeAt, hplace, hput]
    · cases h

/-- A read is answered by a burst; its data, if it completes, are the bytes of that burst. -/
theorem busWriteRead_some {dev : DevAddr} {a : Byte} {n : Nat} {m : EnvMove} {bank bank' : Image} {r : ReadReply}
    (h : busWriteRead dev [a] n m bank = some (r, bank')) :
    ∃ v, readBurst a.toNat n m.changes bank = some (v, bank') ∧ ∀ w, r = .data w → w = v := by
  simp only [busWriteRead] at h
  split at h
  · split at h
    · rename_i v b hburst
      refine ⟨v, ?_⟩
      split at h <;> cases h
      · exact ⟨hburst, fun w hw => by cases hw; rfl⟩
      · exact ⟨hburst, nofun⟩
    · cases h
  · cases h

/-- Settles O38: a read is a burst, and a burst moves no stable bit. -/
theorem readsHaveNoSideEffect : Obligations.ReadsHaveNoSideEffect := by
  intro dev a n m bank bank' r h
  obtain ⟨v, hburst, hdata⟩ := busWriteRead_some h
  obtain ⟨hstable, hlen⟩ := readBurst_stable hburst
  refine ⟨hstable, fun w hw => ?_⟩
  obtain rfl := hdata w hw
  exact ⟨hlen, stable_placeAt_of_readBurst hburst rfl⟩

/-! ### Steps that perform no transaction (R32) -/

/-- Beginning a request leaves the bank. -/
theorem beginRequest_bank {r : Request} {s t : State} (h : beginRequest r s = .next t) : t.bank = s.bank := by
  obtain ⟨_, _, -, rfl⟩ | ⟨-, -, rfl⟩ | ⟨-, -, rfl⟩ | ⟨_, -, -, -, rfl | rfl⟩ := beginRequest_next h <;> rfl

/-- Taking the block's outputs leaves the bank. -/
theorem collect_bank {c : BusCall} {s t : State} (h : collect c s = .next t) : t.bank = s.bank := by
  obtain ⟨_, rfl, -⟩ | ⟨_, rfl, -⟩ := collect_next h <;> rfl

/-- A move of the host that uses no bus leaves the bank to the peripheral. -/
theorem hostStep_bank {s t : State} (h : hostStep s = .next t) (hread : ∀ c, s.phase ≠ .reading c)
    (hwrite : ∀ v, s.phase ≠ .writing v) : t.bank = s.passTime.bank := by
  obtain ⟨-, -, rfl⟩ | ⟨_, _, -, -, hbegin⟩ | ⟨c, hphase, -⟩ | ⟨_, _, -, rfl⟩ | ⟨_, _, -, rfl⟩ | ⟨_, -, hcollect⟩ |
    ⟨v, hphase, -⟩ | ⟨-, rfl⟩ | ⟨_, -, rfl⟩ := hostStep_next h
  · rfl
  · exact (beginRequest_bank hbegin).trans (State.beginRequest_bank _ _)
  · exact absurd hphase (hread c)
  · rfl
  · rfl
  · exact collect_bank hcollect
  · exact absurd hphase (hwrite v)
  · rfl
  · rfl

/-- The next step performs no bus transaction: the block evaluates, or the host's move uses no bus. -/
def NoTransaction (s : State) : Prop :=
  s.op ≠ none ∨ ((∀ c, s.phase ≠ .reading c) ∧ ∀ v, s.phase ≠ .writing v)

/-- In a step without a transaction the bank changes as the environment's move says, and in no other way. -/
theorem step_bank {s t : State} (h : step s = .next t) (hno : NoTransaction s) : t.bank = s.passTime.bank := by
  obtain ⟨w, -, heval⟩ | ⟨hop, hhost⟩ := step_cases s
  · obtain ⟨o, -, rfl⟩ := exec_next (heval.symm.trans h)
    rfl
  · obtain hop' | ⟨hread, hwrite⟩ := hno
    · exact absurd hop hop'
    · exact hostStep_bank (hhost.symm.trans h) hread hwrite

/-- A step that performs a read leaves the stable bits of the bank (R61). -/
theorem step_stable_of_reading {s t : State} {c : BusCall} (h : step s = .next t) (hop : s.op = none)
    (hphase : s.phase = .reading c) : stable t.bank = stable s.bank := by
  simp only [step, hop, hostStep, hphase] at h
  obtain ⟨r, bank, hstable, rfl⟩ := memRead_next h
  exact hstable

/-- Settles O57: a step without a transaction leaves the bank to the peripheral, and a read leaves the stable bits. -/
theorem onlyWritesChangeTheStableBank : Obligations.OnlyWritesChangeTheStableBank := by
  intro s t h
  have stays (hno : NoTransaction s) : stable t.bank = stable s.bank := by rw [step_bank h hno, stable_passTime]
  by_cases hop : s.op = none
  · cases hphase : s.phase with
    | reading c => exact .inl (step_stable_of_reading h hop hphase)
    | writing v => exact .inr ⟨hop, v, rfl⟩
    | _ => exact .inl (stays (.inr (by simp [hphase])))
  · exact .inl (stays (.inl hop))

/-! ### Torn reads (R64) -/

/-- The change before the next byte, after `k` changes of a list, is the list's change number `k`. -/
theorem changeOnce_drop (cs : List Image) (k : Nat) (b : Image) :
    changeOnce (cs.drop k) (changeAll (cs.take k) b) = changeAll (cs.take (k + 1)) b := by
  induction cs generalizing k b with
  | nil => simp [changeOnce, changeAll]
  | cons c cs ih =>
    cases k with
    | zero => rfl
    | succ k => exact ih k (peripheralChange c b)

/-- Changes made one list after the other are the changes of the joined list. -/
theorem changeAll_append (cs ds : List Image) (b : Image) : changeAll ds (changeAll cs b) = changeAll (cs ++ ds) b := by
  induction cs generalizing b with
  | nil => rfl
  | cons c cs ih => exact ih (peripheralChange c b)

/-- What is left of a list of changes is made after the last byte. -/
theorem readBurst_zero_drop (a k : Nat) (cs : List Image) (b : Image) :
    readBurst a 0 (cs.drop k) (changeAll (cs.take k) b) = some ([], changeAll cs b) := by
  simp [readBurst, changeAll_append]

/-- The first byte of a burst is its register after one more of the changes. -/
theorem readBurst_succ_drop {a n k : Nat} {cs : List Image} {b b' : Image} {x : Byte} {v : List Byte}
    (hx : regAt (changeAll (cs.take (k + 1)) b) a = some x)
    (hrest : readBurst (a + 1) n (cs.drop (k + 1)) (changeAll (cs.take (k + 1)) b) = some (v, b')) :
    readBurst a (n + 1) (cs.drop k) (changeAll (cs.take k) b) = some (x :: v, b') := by
  simp only [readBurst, changeOnce_drop, List.tail_drop, hx, hrest]

/-- A burst over all eight registers answers each as it stands after the changes made before its byte. -/
theorem readBurst_eight (cs : List Image) (b : Image) :
    readBurst 0 8 cs b =
      some ([(changeAll (cs.take 1) b).seconds, (changeAll (cs.take 2) b).minutes, (changeAll (cs.take 3) b).hours,
        (changeAll (cs.take 4) b).weekday, (changeAll (cs.take 5) b).day, (changeAll (cs.take 6) b).month,
        (changeAll (cs.take 7) b).year, (changeAll (cs.take 8) b).control], changeAll cs b) :=
  readBurst_succ_drop (k := 0) rfl <| readBurst_succ_drop rfl <| readBurst_succ_drop rfl <|
    readBurst_succ_drop rfl <| readBurst_succ_drop rfl <| readBurst_succ_drop rfl <| readBurst_succ_drop rfl <|
    readBurst_succ_drop rfl <| readBurst_zero_drop 8 8 cs b

/-! ### One change reaches every value of the volatile bits (R281) -/

/-- The bits in which two images differ: the mask of the change that leads from one to the other. -/
def changeBetween (b b' : Image) : Image :=
  { seconds := b.seconds ^^^ b'.seconds
    minutes := b.minutes ^^^ b'.minutes
    hours := b.hours ^^^ b'.hours
    weekday := b.weekday ^^^ b'.weekday
    day := b.day ^^^ b'.day
    month := b.month ^^^ b'.month
    year := b.year ^^^ b'.year
    control := b.control ^^^ b'.control }

/-- Flipping, within a mask, the bits in which two bytes differ leads from the one to the other, if they agree
outside the mask. -/
theorem flipWithin_xor {m b b' : Byte} (h : outside m b' = outside m b) : flipWithin m (b ^^^ b') b = b' := by
  ext i hi
  have hbit : (outside m b')[i] = (outside m b)[i] := by rw [h]
  simp only [outside, BitVec.getElem_and, BitVec.getElem_not] at hbit
  simp only [flipWithin, BitVec.getElem_xor, BitVec.getElem_and]
  cases hm : m[i] <;> simp_all

/-- Two banks with the same stable bits are one change of the peripheral's own apart. -/
theorem peripheralChange_changeBetween {b b' : Image} (h : stable b' = stable b) :
    peripheralChange (changeBetween b b') b = b' := by
  simp only [stable, Image.mk.injEq] at h
  obtain ⟨hsec, hmin, hhour, hweek, hday, hmonth, hyear, hctl⟩ := h
  simp [peripheralChange, changeBetween, flipWithin_xor hsec, flipWithin_xor hmin, flipWithin_xor hhour,
    flipWithin_xor hweek, flipWithin_xor hday, flipWithin_xor hmonth, flipWithin_xor hyear, flipWithin_xor hctl]

/-- Settles O58: the bank in steps without a transaction, torn reads, and the reach of one change. -/
theorem peripheralMayChangeAtAnyTime : Obligations.PeripheralMayChangeAtAnyTime := by
  refine ⟨fun s t => step_bank, fun cs u b => ?_, fun b b' h => ⟨_, peripheralChange_changeBetween h⟩⟩
  have hadmitted : readAdmitted 0x6F#7 [0x00#8] 8 = true := by decide
  have hburst := readBurst_eight cs b
  simp only [busWriteRead, hadmitted, if_true, BitVec.toNat_ofNat, Nat.zero_mod, hburst]

end Sys2Proof.Machine
end

section
/-! SUPPORT. The invariant (family 10_state): it holds after reset, and each kind of move keeps it. -/

namespace Sys2Proof.Machine

open Sys2Proof.Safety

/-- Settles O35: reset names the value of every one of these fields. -/
theorem resetLeavesOutputsUndriven : Obligations.ResetLeavesOutputsUndriven :=
  ⟨rfl, rfl, rfl, rfl, rfl, rfl, rfl, rfl, rfl, rfl⟩

/-- Settles O54: after reset no sequence is under way, no transaction is recorded and no port is driven. -/
theorem resetMeetsTheInvariant : Obligations.ResetMeetsTheInvariant :=
  { sessionOwnsHandle := fun hphase => absurd rfl hphase
    transactionCount := Nat.zero_le 2
    outputs := trivial }

/-- Settles O59: after reset no operation is presented and no sequence is under way, so the program is all there is. -/
theorem legalProgramsStartRunning : Obligations.LegalProgramsStartRunning := fun _ hlegal =>
  { presented := nofun
    phase := trivial
    sessionOwnsHandle := fun hphase => absurd rfl hphase
    program := hlegal }

variable {s t : State}

/-- In every phase at most two transactions have been performed (R220). -/
theorem transactions_le_two (hinv : Invariant s) : s.transactions.length ≤ 2 := by
  have hcount := hinv.transactionCount
  cases hphase : s.phase <;> simp only [hphase, countFits] at hcount <;> omega

/-- The peripheral's own changes touch nothing the invariant speaks of. -/
theorem invariant_passTime (hinv : Invariant s) : Invariant s.passTime :=
  ⟨hinv.sessionOwnsHandle, hinv.transactionCount, hinv.outputs⟩

/-- Outside a sequence, all that is left to ask is the bound on the transactions and the outputs. -/
theorem invariant_of_idle (hphase : s.phase = .idle) (hcount : s.transactions.length ≤ 2) (hout : outputsFit s.out) :
    Invariant s :=
  { sessionOwnsHandle := fun h => absurd hphase h
    transactionCount := by rw [hphase]; exact hcount
    outputs := hout }

/-- A sequence may return in any phase. -/
theorem invariant_returnCall (hinv : Invariant s) (r : CallResult) : Invariant (s.returnCall r) :=
  have hcount := transactions_le_two hinv
  invariant_of_idle rfl hcount hinv.outputs

/-- A sequence that owns the handle may go on to any phase that its transactions fit. -/
theorem invariant_withPhase {p : Phase} (hhandle : s.handle = .session) (hcount : countFits s.transactions.length p)
    (hout : outputsFit s.out) : Invariant (s.withPhase p) :=
  { sessionOwnsHandle := fun _ => hhandle
    transactionCount := hcount
    outputs := hout }

/-- An evaluation keeps the invariant: it only drives the outputs, and with outputs that fit. -/
theorem invariant_exec {i : Instr} (hinv : Invariant s) (h : exec i s = .next t) : Invariant t := by
  obtain ⟨o, ho, rfl⟩ := exec_next h
  exact ⟨hinv.sessionOwnsHandle, hinv.transactionCount, outcomeOf_fits ho⟩

/-- Beginning a request outside a sequence keeps the invariant; nothing has been sent on the bus for it yet. -/
theorem invariant_beginRequest {r : Request} (hphase : s.phase = .idle) (hnone : s.transactions = [])
    (hout : outputsFit s.out) (h : beginRequest r s = .next t) : Invariant t := by
  have hcount : s.transactions.length ≤ 2 := by simp [hnone]
  obtain ⟨w, inp, -, rfl⟩ | ⟨-, -, rfl⟩ | ⟨-, -, rfl⟩ | ⟨c, -, hhandle, -, rfl | rfl⟩ := beginRequest_next h
  · exact invariant_of_idle hphase hcount trivial
  · exact invariant_of_idle rfl hcount hout
  · exact invariant_of_idle rfl hcount hout
  · exact invariant_withPhase hhandle (by simp [hnone, countFits]) hout
  · exact invariant_of_idle rfl hcount hout

/-- Taking the block's outputs keeps the invariant: the sequence returns, or goes on to its write. -/
theorem invariant_collect {c : BusCall} (hinv : Invariant s) (hhandle : s.handle = .session)
    (hcount : s.transactions.length = 1) (h : collect c s = .next t) : Invariant t := by
  obtain ⟨r, rfl, -⟩ | ⟨v, rfl, -⟩ := collect_next h
  · exact invariant_returnCall hinv r
  · exact invariant_withPhase hhandle hcount hinv.outputs

/-- A move of the host keeps the invariant, in every phase. -/
theorem invariant_hostStep (hinv : Invariant s) (h : hostStep s = .next t) : Invariant t := by
  have hpass := invariant_passTime hinv
  have hcount := hinv.transactionCount
  have hhandle := hinv.sessionOwnsHandle
  have hout := hinv.outputs
  obtain ⟨-, -, rfl⟩ | ⟨r, rest, hphase, -, hbegin⟩ | ⟨c, hphase, hread⟩ | ⟨c, v, hphase, rfl⟩ | ⟨c, e, -, rfl⟩ |
    ⟨c, hphase, hcollect⟩ | ⟨v, hphase, hwrite⟩ | ⟨-, rfl⟩ | ⟨e, -, rfl⟩ := hostStep_next h
  · exact hpass
  · exact invariant_beginRequest (s := s.passTime.beginRequest rest) hphase rfl hout hbegin
  · obtain ⟨reply, bank, -, rfl⟩ := memRead_next hread
    rw [hphase] at hcount hhandle
    exact invariant_withPhase (hhandle (by simp)) (by simpa [countFits] using hcount) hout
  · rw [hphase] at hcount hhandle
    exact invariant_withPhase (hhandle (by simp)) hcount trivial
  · exact invariant_returnCall hpass _
  · rw [hphase] at hcount hhandle
    exact invariant_collect hpass (hhandle (by simp)) hcount hcollect
  · obtain ⟨reply, bank, rfl⟩ := memWrite_next hwrite
    rw [hphase] at hcount hhandle
    exact invariant_withPhase (hhandle (by simp)) (by simpa [countFits] using hcount) hout
  · exact invariant_returnCall hpass _
  · exact invariant_returnCall hpass _

/-- Settles O55: a step is an evaluation or a move of the host, and each keeps the invariant. -/
theorem stepKeepsTheInvariant : Obligations.StepKeepsTheInvariant := by
  intro s t hinv h
  obtain ⟨w, -, heval⟩ | ⟨-, hhost⟩ := step_cases s
  · have htaken : Invariant s.passTime.takeOp := ⟨hinv.sessionOwnsHandle, hinv.transactionCount, hinv.outputs⟩
    exact invariant_exec htaken (heval.symm.trans h)
  · exact invariant_hostStep hinv (hhost.symm.trans h)

end Sys2Proof.Machine
end

section
/-! SUPPORT. Transactions (family 20_memory): the two transport calls as equations over their bursts, and what
each of them answers and leaves in the bank. -/

namespace Sys2Proof.Machine

open Sys2Proof.Safety

/-! ### The transactions of R59 -/

/-- The reads of R59, as the host issues them. -/
theorem readAdmitted_iff (a : Byte) (n : Nat) :
    readAdmitted devAddr [a] n = true ↔ (a = 0x03#8 ∧ n = 1) ∨ (a = 0x00#8 ∧ (n = 7 ∨ n = 8)) := by
  simp [readAdmitted]

/-- The writes of R59, as the host issues them: the frame is one byte longer than what it writes. -/
theorem writeAdmitted_iff (a : Byte) (v : List Byte) :
    writeAdmitted devAddr (a :: v) = true ↔ a = 0x00#8 ∧ (v.length = 7 ∨ v.length = 8) := by
  simp [writeAdmitted]

/-- How a `write_read` that read the bytes `v` ends under a move of the environment. -/
def readReply (m : EnvMove) (v : List Byte) : ReadReply :=
  match m.failure with
  | none => .data v
  | some e => .failed e

/-- How a `write` ends under a move of the environment. -/
def writeReply (m : EnvMove) : WriteReply :=
  match m.failure with
  | none => .done
  | some e => .failed e

theorem readReply_of_completed {m : EnvMove} (h : m.failure = none) (v : List Byte) : readReply m v = .data v := by
  simp only [readReply, h]

theorem writeReply_of_completed {m : EnvMove} (h : m.failure = none) : writeReply m = .done := by
  simp only [writeReply, h]

theorem writeReply_of_failed {m : EnvMove} {e : TransportError} (h : m.failure = some e) :
    writeReply m = .failed e := by
  simp only [writeReply, h]

/-- A completed write updates every register of its frame. -/
theorem updatedBy_of_completed {m : EnvMove} (h : m.failure = none) : updatedBy m = 0xFF#8 := by
  simp only [updatedBy, h]

/-- A `write_read` is a read burst, if it is one of R59's (R62). -/
theorem busWriteRead_eq (dev : DevAddr) (a : Byte) (n : Nat) (m : EnvMove) (bank : Image) :
    busWriteRead dev [a] n m bank =
      if readAdmitted dev [a] n then
        (readBurst a.toNat n m.changes bank).map fun p => (readReply m p.1, p.2)
      else none := by
  simp only [busWriteRead]
  congr 1
  cases readBurst a.toNat n m.changes bank with
  | none => rfl
  | some p => cases hfail : m.failure <;> simp [readReply, hfail]

/-- A `write` is a write burst, if it is one of R59's (R62). -/
theorem busWrite_eq (dev : DevAddr) (a : Byte) (v : List Byte) (m : EnvMove) (bank : Image) :
    busWrite dev (a :: v) m bank =
      if writeAdmitted dev (a :: v) then
        (writeBurst (updatedBy m) a.toNat v m.changes bank).map fun b => (writeReply m, b)
      else none := by
  simp only [busWrite]
  congr 1
  cases writeBurst (updatedBy m) a.toNat v m.changes bank with
  | none => rfl
  | some b => cases hfail : m.failure <;> simp [writeReply, hfail]

/-- A write that answers is a burst that answers, and its reply is the environment's. -/
theorem busWrite_some {dev : DevAddr} {a : Byte} {v : List Byte} {m : EnvMove} {bank bank' : Image} {r : WriteReply}
    (h : busWrite dev (a :: v) m bank = some (r, bank')) :
    r = writeReply m ∧ writeBurst (updatedBy m) a.toNat v m.changes bank = some bank' := by
  rw [busWrite_eq] at h
  split at h
  · obtain ⟨b, hburst, hreply⟩ := Option.map_eq_some_iff.1 h
    cases hreply
    exact ⟨rfl, hburst⟩
  · cases h

/-- Settles O41: both calls ask first whether the transaction is one of R59's. -/
theorem otherTransactionsAreRefused : Obligations.OtherTransactionsAreRefused := by
  refine ⟨fun a n c s hother => ?_, fun a v s hother => ?_⟩
  · rw [← readAdmitted_iff] at hother
    simp [memRead, busWriteRead_eq, hother]
  · rw [← writeAdmitted_iff] at hother
    simp [memWrite, writeFrame, busWrite_eq, hother]

/-! ### Registers as a list -/

theorem regsOf_length (b : Image) : (regsOf b).length = 8 := rfl

/-- The register at an address is the entry of the register list. -/
theorem regAt_eq_getElem? (b : Image) (k : Nat) : regAt b k = (regsOf b)[k]? := by
  by_cases hk : k < 8
  · interval_cases k <;> rfl
  · rw [regAt_none (by omega), List.getElem?_eq_none (by rw [regsOf_length]; omega)]

/-- There is no register at 0x08 and above to set. -/
theorem setRegAt_none {a : Nat} (h : 8 ≤ a) (b : Image) (x : Byte) : setRegAt b a x = none := by
  obtain ⟨k, rfl⟩ := Nat.exists_eq_add_of_le' h
  rfl

/-- Two banks are equal if their registers are. -/
theorem image_ext_regAt {b c : Image} (h : ∀ k, regAt b k = regAt c k) : b = c := by
  have hregs : regsOf b = regsOf c := List.ext_getElem? fun k => by simpa only [regAt_eq_getElem?] using h k
  calc b = placeAt 0 (regsOf b) b := (placeAt_eight b b).symm
    _ = placeAt 0 (regsOf c) b := by rw [hregs]
    _ = c := placeAt_eight c b

/-! ### A quiet read (R52, R56) -/

/-- A read burst with no change of the peripheral's own answers the registers as they stand. -/
theorem readBurst_quiet (b : Image) (n : Nat) : ∀ a, a + n ≤ 8 →
    readBurst a n [] b = some (((regsOf b).drop a).take n, b) := by
  induction n with
  | zero => intro a _; simp [readBurst, changeAll]
  | succ n ih =>
    intro a hle
    have hlt : a < (regsOf b).length := by rw [regsOf_length]; omega
    have hreg : regAt b a = some (regsOf b)[a] := by rw [regAt_eq_getElem?, List.getElem?_eq_getElem hlt]
    simp only [readBurst, changeOnce, List.tail_nil, hreg, ih (a + 1) (by omega), List.drop_eq_getElem_cons hlt,
      List.take_succ_cons]

/-- Settles O37: each of R59's reads is a burst within the map. -/
theorem quietReadReturnsTheRegisters : Obligations.QuietReadReturnsTheRegisters := by
  intro bank a n f u hread
  have hadmitted : readAdmitted 0x6F#7 [a] n = true := (readAdmitted_iff a n).2 hread
  have hinside : a.toNat + n ≤ 8 := by obtain ⟨rfl, rfl⟩ | ⟨rfl, rfl | rfl⟩ := hread <;> decide
  rw [busWriteRead_eq, if_pos hadmitted, readBurst_quiet bank n a.toNat hinside]
  cases f <;> rfl

/-! ### Writing a selection of registers (R55, R57, R60) -/

/-- The image with the bytes `v` put at addresses `a`, `a+1`, … , but only at those whose bit of `sel` is set:
what a write burst does while the peripheral changes nothing. -/
def placeSelected (sel : Byte) (a : Nat) : List Byte → Image → Image
  | [], b => b
  | x :: v, b => placeSelected sel (a + 1) v (if bit sel a then (setRegAt b a x).getD b else b)

/-- The byte that such a placing puts at address `k`, if it puts one there. -/
def written (sel : Byte) (a : Nat) (v : List Byte) (k : Nat) : Option Byte :=
  if a ≤ k ∧ bit sel k = true then v[k - a]? else none

/-- There is no selection bit at 0x08 and above. -/
theorem lt_of_bit {b : Byte} {k : Nat} (h : bit b k = true) : k < 8 := BitVec.lt_of_getLsbD h

/-- Every register is selected when all are. -/
theorem bit_allSelected {k : Nat} (h : k < 8) : bit 0xFF#8 k = true := by
  interval_cases k <;> rfl

/-- A byte is written only to a register of the frame. -/
theorem written_eq_some {sel : Byte} {v : List Byte} {k : Nat} {x : Byte} (h : written sel 0 v k = some x) :
    v[k]? = some x ∧ k < v.length ∧ bit sel k = true := by
  simp only [written, Nat.zero_le, true_and, Nat.sub_zero, Option.ite_none_right_eq_some] at h
  obtain ⟨hsel, hx⟩ := h
  exact ⟨hx, (List.getElem?_eq_some_iff.1 hx).1, hsel⟩

/-- Where a register is selected, it gets what it gets when all are. -/
theorem written_of_bit {sel : Byte} {k : Nat} (h : bit sel k = true) (a : Nat) (v : List Byte) :
    written sel a v k = written 0xFF#8 a v k := by
  simp only [written, h, bit_allSelected (lt_of_bit h)]

/-- The registers after one byte of a placing. -/
theorem regAt_selected (sel : Byte) (a : Nat) (x : Byte) (b : Image) (k : Nat) :
    regAt (if bit sel a then (setRegAt b a x).getD b else b) k =
      if k = a ∧ bit sel a = true then some x else regAt b k := by
  by_cases hsel : bit sel a = true
  · obtain ⟨b', hset⟩ := setRegAt_some (lt_of_bit hsel) b x
    simp only [hsel, if_true, and_true, hset, Option.getD_some, regAt_setRegAt hset]
  · simp only [hsel, Bool.false_eq_true, if_false, and_false]

/-- The registers after a placing: the bytes written, and the old registers where there is none. -/
theorem regAt_placeSelected (sel : Byte) (v : List Byte) : ∀ (a : Nat) (b : Image) (k : Nat),
    regAt (placeSelected sel a v b) k = (written sel a v k).or (regAt b k) := by
  induction v with
  | nil => intro a b k; simp [placeSelected, written]
  | cons x v ih =>
    intro a b k
    rw [placeSelected, ih, regAt_selected]
    obtain hlt | rfl | hgt := lt_trichotomy k a
    · simp [written, show ¬ a + 1 ≤ k by omega, show ¬ a ≤ k by omega, hlt.ne]
    · cases hsel : bit sel k <;> simp [written, hsel]
    · have hnext : k - a = k - (a + 1) + 1 := by omega
      simp [written, show a + 1 ≤ k by omega, hgt.le, hgt.ne', hnext]

/-- Placing all bytes is `placeAt`. -/
theorem placeSelected_all (v : List Byte) : ∀ (a : Nat) (b : Image),
    placeSelected 0xFF#8 a v b = placeAt a v b := by
  induction v with
  | nil => intros; rfl
  | cons x v ih =>
    intro a b
    rw [placeSelected, ih, placeAt]
    by_cases ha : a < 8
    · rw [if_pos (bit_allSelected ha)]
    · simp [setRegAt_none (not_lt.1 ha)]

/-- The registers after placing all bytes. -/
theorem regAt_placeAt (v : List Byte) (b : Image) (k : Nat) :
    regAt (placeAt 0 v b) k = (written 0xFF#8 0 v k).or (regAt b k) := by
  rw [← placeSelected_all, regAt_placeSelected]

/-- A selected register holds what it holds after placing all bytes, every other one its old byte. -/
theorem regAt_placeSelected_eq_ite (sel : Byte) (v : List Byte) (b : Image) (k : Nat) :
    regAt (placeSelected sel 0 v b) k = if bit sel k = true then regAt (placeAt 0 v b) k else regAt b k := by
  rw [regAt_placeSelected, regAt_placeAt]
  split
  · rename_i hsel; rw [written_of_bit hsel]
  · rename_i hsel; simp [written, hsel]

/-! ### Bits of a bank under a mask -/

/-- The bits of a bank that a mask keeps. -/
def kept (keep b : Image) : Image :=
  { seconds := b.seconds &&& keep.seconds
    minutes := b.minutes &&& keep.minutes
    hours := b.hours &&& keep.hours
    weekday := b.weekday &&& keep.weekday
    day := b.day &&& keep.day
    month := b.month &&& keep.month
    year := b.year &&& keep.year
    control := b.control &&& keep.control }

/-- The mask of the bits that the peripheral never changes on its own (R32). -/
def stableBits : Image :=
  { seconds := ~~~Config.deviceVolatileMask.seconds
    minutes := ~~~Config.deviceVolatileMask.minutes
    hours := ~~~Config.deviceVolatileMask.hours
    weekday := ~~~Config.deviceVolatileMask.weekday
    day := ~~~Config.deviceVolatileMask.day
    month := ~~~Config.deviceVolatileMask.month
    year := ~~~Config.deviceVolatileMask.year
    control := ~~~Config.deviceVolatileMask.control }

theorem stable_eq_kept (b : Image) : stable b = kept stableBits b := rfl

/-- Masks commute. -/
theorem kept_stable (keep b : Image) : kept keep (stable b) = stable (kept keep b) := by
  simp only [stable_eq_kept, kept, Image.mk.injEq]
  and_intros <;> ac_rfl

/-- A masked register depends on that register alone. -/
theorem regAt_kept_congr (keep : Image) {b c : Image} {k : Nat} (h : regAt b k = regAt c k) :
    regAt (kept keep b) k = regAt (kept keep c) k := by
  by_cases hk : k < 8
  · interval_cases k <;> simp_all [regAt, kept]
  · rw [regAt_none (by omega), regAt_none (by omega)]

/-- A stable register depends on that register alone. -/
theorem regAt_stable_congr {b c : Image} {k : Nat} (h : regAt b k = regAt c k) :
    regAt (stable b) k = regAt (stable c) k :=
  regAt_kept_congr stableBits h

/-! ### Write bursts -/

/-- Placing the same bytes in banks with the same stable bits gives banks with the same stable bits. -/
theorem stable_placeSelected_congr {b c : Image} (h : stable b = stable c) (sel : Byte) (a : Nat) (v : List Byte) :
    stable (placeSelected sel a v b) = stable (placeSelected sel a v c) := by
  refine image_ext_regAt fun k => ?_
  cases hw : written sel a v k with
  | some x => exact regAt_stable_congr (by simp [regAt_placeSelected, hw])
  | none =>
    calc regAt (stable (placeSelected sel a v b)) k
        = regAt (stable b) k := regAt_stable_congr (by simp [regAt_placeSelected, hw])
      _ = regAt (stable c) k := by rw [h]
      _ = regAt (stable (placeSelected sel a v c)) k := regAt_stable_congr (by simp [regAt_placeSelected, hw])

/-- A write burst places the selected bytes, in every bit that the peripheral does not change, and exactly so
if it changes nothing (R57, R60). -/
theorem writeBurst_placeSelected {sel : Byte} {a : Nat} {v : List Byte} {cs : List Image} {b b' : Image}
    (h : writeBurst sel a v cs b = some b') :
    stable b' = stable (placeSelected sel a v b) ∧ (cs = [] → b' = placeSelected sel a v b) := by
  induction v generalizing a cs b with
  | nil =>
    cases h
    exact ⟨stable_changeAll cs b, by rintro rfl; rfl⟩
  | cons x v ih =>
    simp only [writeBurst] at h
    split at h
    · rename_i b1 hset
      have hstep : placeSelected sel (a + 1) v (if bit sel a then b1 else changeOnce cs b) =
          placeSelected sel a (x :: v) (changeOnce cs b) := by
        rw [placeSelected, hset, Option.getD_some]
      obtain ⟨hstable, hexact⟩ := ih h
      rw [hstep] at hstable hexact
      refine ⟨hstable.trans (stable_placeSelected_congr (stable_changeOnce cs b) _ _ _), ?_⟩
      rintro rfl
      exact hexact rfl
    · cases h

/-- A write of R59 answers: it places the bytes that the environment's move selects. -/
theorem busWrite_answers {v : List Byte} (hlen : v.length = 7 ∨ v.length = 8) (m : EnvMove) (bank : Image) :
    ∃ bank', busWrite devAddr (0x00#8 :: v) m bank = some (writeReply m, bank') ∧
      stable bank' = stable (placeSelected (updatedBy m) 0 v bank) ∧
      (m.changes = [] → bank' = placeSelected (updatedBy m) 0 v bank) := by
  have hadmitted : writeAdmitted devAddr (0x00#8 :: v) = true := (writeAdmitted_iff _ v).2 ⟨rfl, hlen⟩
  obtain ⟨bank', hburst⟩ := writeBurst_some (updatedBy m) v 0 m.changes bank (by omega)
  refine ⟨bank', ?_, writeBurst_placeSelected hburst⟩
  rw [busWrite_eq, if_pos hadmitted]
  exact congrArg (Option.map _) hburst

/-- Settles O39: a completed write selects every register, and placing all bytes is `placeAt`. -/
theorem completedWriteUpdatesTheFrame : Obligations.CompletedWriteUpdatesTheFrame := by
  intro v m bank bank' r hcompleted hwrite
  obtain ⟨rfl, hburst⟩ := busWrite_some hwrite
  rw [updatedBy_of_completed hcompleted] at hburst
  obtain ⟨hstable, hexact⟩ := writeBurst_placeSelected hburst
  simp only [BitVec.toNat_ofNat, Nat.zero_mod, placeSelected_all] at hstable hexact
  exact ⟨writeReply_of_completed hcompleted, hstable, hexact⟩

/-- Settles O40: a failed write places the bytes that the environment's move selects, and every move may occur. -/
theorem failedWriteUpdatesAnySubset : Obligations.FailedWriteUpdatesAnySubset := by
  refine ⟨fun v m e bank bank' r hfailed hwrite => ?_, fun v e bank u hlen => ?_⟩
  · obtain ⟨rfl, hburst⟩ := busWrite_some hwrite
    refine ⟨writeReply_of_failed hfailed, fun k => ?_⟩
    have hstable : stable bank' = stable (placeSelected (updatedBy m) 0 v bank) := (writeBurst_placeSelected hburst).1
    rw [hstable]
    cases hw : written (updatedBy m) 0 v k with
    | none => exact .inl (regAt_stable_congr (by simp [regAt_placeSelected, hw]))
    | some x =>
      obtain ⟨-, hk, hsel⟩ := written_eq_some hw
      exact .inr ⟨hk, regAt_stable_congr (by rw [regAt_placeSelected_eq_ite, if_pos hsel])⟩
  · obtain ⟨bank', hwrite, -, hexact⟩ := busWrite_answers hlen (failing e u) bank
    refine ⟨bank', hwrite, fun k _ => ?_⟩
    rw [hexact rfl]
    exact regAt_placeSelected_eq_ite u v bank k

end Sys2Proof.Machine
end

section
/-! SUPPORT. The sequences that write back what they read (family 20_memory): SET_DATETIME and CONFIGURE_CLOCK
read a span of registers, put it through the block and write the image back. What the encoding keeps of an
image, the sequence keeps of the bank. -/

namespace Sys2Proof.Machine

open Sys2Proof.Safety

/-! ### The span read and the frame written -/

/-- Bytes placed over two images leave the same registers where there is a byte. -/
theorem regAt_placeAt_congr {v : List Byte} {k : Nat} (hk : k < v.length) (b c : Image) :
    regAt (placeAt 0 v b) k = regAt (placeAt 0 v c) k := by
  by_cases h8 : k < 8
  · simp [regAt_placeAt, written, bit_allSelected h8, hk]
  · rw [regAt_none (by omega), regAt_none (by omega)]

/-- A completed read of a span answers bytes that, placed over any image, give registers that agree with the bank
in the bits the peripheral does not change (R56, R61). -/
theorem busWriteRead_span {n : Nat} (hn : n = 7 ∨ n = 8) {m : EnvMove} (hm : m.failure = none) (bank : Image) :
    ∃ v bank', busWriteRead devAddr [0x00#8] n m bank = some (.data v, bank') ∧ stable bank' = stable bank ∧
      ∀ free k, k < n → regAt (stable (placeAt 0 v free)) k = regAt (stable bank) k := by
  have hadmitted : readAdmitted devAddr [0x00#8] n = true := (readAdmitted_iff _ n).2 (.inr ⟨rfl, hn⟩)
  obtain ⟨v, bank', hburst⟩ := readBurst_some n 0 m.changes bank (by omega)
  have hread : busWriteRead devAddr [0x00#8] n m bank = some (.data v, bank') := by
    rw [busWriteRead_eq, if_pos hadmitted]
    simp [hburst, readReply_of_completed hm]
  obtain ⟨hstable, hdata⟩ := readsHaveNoSideEffect _ _ _ _ _ _ _ hread
  obtain ⟨hlen, hplace⟩ := hdata v rfl
  refine ⟨v, bank', hread, hstable, fun free k hk => ?_⟩
  calc regAt (stable (placeAt 0 v free)) k
      = regAt (stable (placeAt 0 v bank)) k := regAt_stable_congr (regAt_placeAt_congr (hlen.symm ▸ hk) _ _)
    _ = regAt (stable bank) k := congrArg (regAt · k) hplace

/-- Writing back the first registers of an image, all or some of them, keeps what the image agrees with the bank
in (R60). -/
theorem kept_placeSelected_regsOf {keep img b : Image} {n : Nat}
    (h : ∀ k, k < n → regAt (kept keep (stable img)) k = regAt (kept keep (stable b)) k) (sel : Byte) :
    kept keep (stable (placeSelected sel 0 ((regsOf img).take n) b)) = kept keep (stable b) := by
  refine image_ext_regAt fun k => ?_
  cases hw : written sel 0 ((regsOf img).take n) k with
  | none => exact regAt_kept_congr keep (regAt_stable_congr (by simp [regAt_placeSelected, hw]))
  | some x =>
    obtain ⟨hbyte, hk, -⟩ := written_eq_some hw
    have hkn : k < n := lt_of_lt_of_le hk (List.length_take_le n _)
    have himg : regAt img k = some x := by rw [regAt_eq_getElem?, ← hbyte, List.getElem?_take_of_lt hkn]
    calc regAt (kept keep (stable (placeSelected sel 0 ((regsOf img).take n) b))) k
        = regAt (kept keep (stable img)) k :=
          regAt_kept_congr keep (regAt_stable_congr (by simp [regAt_placeSelected, hw, himg]))
      _ = regAt (kept keep (stable b)) k := h k hkn

/-! ### Sequences that write back -/

/-- The sequence `c` reads the first `n` registers, encodes into the image read by `enc`, and writes the first
`n` registers of the result (R213, R215). -/
structure WritesBack (c : BusCall) (n : Nat) (enc : Image → Image) : Prop where
  begins : ∀ s, beginBusCall c s = .next (s.withPhase (.reading c))
  span : readSpan c = (0x00#8, n)
  length : n = 7 ∨ n = 8
  encodes : ∀ v free inp, ∃ o, outcomeOf (operationOf c) (inputsOf c v free inp) = some o ∧
    readImgOut o = .ok (enc (placeAt 0 v free))
  collects : ∀ s img, readImgOut s.out = .ok img →
    collect c s = .next (s.withPhase (.writing ((regsOf img).take n)))

/-- CONFIGURE_CLOCK writes back all eight registers (R215). -/
theorem writesBack_configureClock (cfg : ClockConfig) : WritesBack (.configureClock cfg) 8 (encodeConfig cfg) where
  begins _ := rfl
  span := rfl
  length := .inr rfl
  encodes _ _ _ := ⟨_, rfl, rfl⟩
  collects s img h := by simp only [collect, h]; rfl

/-- SET_DATETIME on a valid timestamp of 2000..2099 writes back the first seven registers (R213). -/
theorem writesBack_setDatetime {ts : Timestamp} (hvalid : tsValid ts = true) (hyear : yearInRange ts.year = true) :
    WritesBack (.setDatetime ts) 7 (encodeTime ts) where
  begins s := by simp [beginBusCall, hvalid, hyear]
  span := rfl
  length := .inl rfl
  encodes v free inp := by
    refine ⟨.enct (encodeTime ts (placeAt 0 v free)), ?_, rfl⟩
    simp only [operationOf, inputsOf, outcomeOf, hvalid, hyear, if_true]
  collects s img h := by
    have hnoerror : s.out ≠ .error .range := by
      intro herror
      rw [herror] at h
      cases h
    simp only [collect, if_neg hnoerror, h]; rfl

/-- A call that runs at all is well formed (R213). -/
theorem wellFormed_of_run {s t : State} {c : BusCall} {rest : List Request} {k : Nat} (h : Awaits c rest s)
    (hrun : run (k + 1) s = .next t) : c.wellFormed = true := by
  obtain ⟨hop, hphase, -, hpending⟩ := h
  obtain ⟨u, hstep, -⟩ := run_succ_next hrun
  have hbegin : beginRequest (.call (.onBus c)) (s.passTime.beginRequest rest) = .next u := by
    simpa [step, hop, hostStep, hphase, hpending] using hstep
  obtain ⟨_, _, hr, -⟩ | ⟨hr, -⟩ | ⟨hr, -⟩ | ⟨_, hr, -, hwf, -⟩ := beginRequest_next hbegin <;> cases hr
  exact hwf

/-- The last three steps of a sequence that writes back, from the outputs it waits for: it writes some of the first
registers of the image on `img_out`, in every bit that the peripheral does not change. -/
theorem WritesBack.run_last_three {c : BusCall} {n : Nat} {enc : Image → Image} (hw : WritesBack c n enc) {s : State}
    {img : Image} (hop : s.op = none) (hphase : s.phase = .evaluating c) (himg : readImgOut s.out = .ok img) :
    ∃ t sel, run 3 s = .next t ∧ t.phase = .idle ∧ t.pending = s.pending ∧
      stable t.bank = stable (placeSelected sel 0 ((regsOf img).take n) s.bank) := by
  have hlen : ((regsOf img).take n).length = 7 ∨ ((regsOf img).take n).length = 8 := by
    have := hw.length
    rw [List.length_take, regsOf_length]; omega
  obtain ⟨bank, hwrite, hbank, -⟩ := busWrite_answers hlen (s.moveAt 1) s.passTime.bank
  have hcollect := run_collect hop hphase (hw.collects s.passTime img himg)
  obtain ⟨t, hrun, -, htbank, -, htphase, htpending, -⟩ :=
    run_write (s := s.passTime.withPhase (.writing ((regsOf img).take n))) hop rfl (by simpa [writeFrame] using hwrite)
  refine ⟨t, updatedBy (s.moveAt 1), (hcollect 2).trans (hrun 0), htphase, htpending, ?_⟩
  calc stable t.bank
      = stable bank := by rw [htbank, stable_changeAll]
    _ = stable (placeSelected _ 0 _ s.passTime.bank) := hbank
    _ = stable (placeSelected _ 0 _ s.bank) := stable_placeSelected_congr (stable_passTime s) _ _ _

/-- A whole sequence that writes back, whatever the peripheral does and however the write ends: the span of the
image `b` that it encodes into agrees with the bank, and it writes some of the registers of the result, in every
bit that the peripheral does not change. -/
theorem WritesBack.run_seven {c : BusCall} {n : Nat} {enc : Image → Image} (hw : WritesBack c n enc) {s t : State}
    {rest : List Request} (h : Awaits c rest s) (hread : (s.moveAt 1).failure = none) (hrun : run 7 s = .next t) :
    t.phase = .idle ∧ t.pending = rest ∧ ∃ b sel, (∀ k, k < n → regAt (stable b) k = regAt (stable s.bank) k) ∧
      stable t.bank = stable (placeSelected sel 0 ((regsOf (enc b)).take n) s.bank) := by
  obtain ⟨v, bank, hreply, hbank, hspan⟩ :=
    busWriteRead_span hw.length hread (changeAll (s.moveAt 0).changes s.bank)
  rw [stable_changeAll] at hbank hspan
  obtain ⟨u, free, hrun4, hop, hout, hubank, -, huphase, hupending, -⟩ :=
    run_eval h hw.begins (by rw [hw.span]; exact hreply) fun free => (hw.encodes v free s.inp).imp fun _ => And.left
  obtain ⟨o, ho, himg⟩ := hw.encodes v free s.inp
  obtain rfl : o = u.out := Option.some.inj (ho.symm.trans hout)
  obtain ⟨t', sel, hrun3, hphase, hpending, htbank⟩ := hw.run_last_three hop huphase himg
  obtain rfl : t' = t := Host.Outcome.next.inj (((hrun4 3).trans hrun3).symm.trans hrun)
  have hstable : stable u.bank = stable s.bank := by
    rw [hubank, stable_changeAll, stable_changeAll, hbank]
  exact ⟨hphase, hpending.trans hupending, placeAt 0 v free, sel, hspan free,
    htbank.trans (stable_placeSelected_congr hstable sel 0 _)⟩

/-- What the encoding keeps of every image, the sequence keeps of the bank (R174, R193). -/
theorem WritesBack.kept_bank {c : BusCall} {n : Nat} {enc : Image → Image} (hw : WritesBack c n enc) {keep : Image}
    (henc : ∀ b, kept keep (enc b) = kept keep b) {s t : State} {rest : List Request} (h : Awaits c rest s)
    (hread : (s.moveAt 1).failure = none) (hrun : run 7 s = .next t) :
    t.phase = .idle ∧ t.pending = rest ∧ kept keep (stable t.bank) = kept keep (stable s.bank) := by
  obtain ⟨hphase, hpending, b, sel, hspan, hbank⟩ := hw.run_seven h hread hrun
  refine ⟨hphase, hpending, ?_⟩
  rw [hbank]
  refine kept_placeSelected_regsOf (fun k hk => ?_) sel
  calc regAt (kept keep (stable (enc b))) k
      = regAt (kept keep (stable b)) k := by rw [kept_stable, henc, ← kept_stable]
    _ = regAt (kept keep (stable s.bank)) k := regAt_kept_congr keep (hspan k hk)

/-! ### What the two encodings keep -/

/-- The bits that CFGE keeps: all but OSC_EN and EXTOSC (R193). -/
def configKeep : Image :=
  { seconds := 0x7F#8, minutes := 0xFF#8, hours := 0xFF#8, weekday := 0xFF#8, day := 0xFF#8, month := 0xFF#8,
    year := 0xFF#8, control := 0xF7#8 }

/-- The bits that ENCT keeps (R31, R174). -/
def timeKeep : Image :=
  { seconds := 0x80#8, minutes := 0x80#8, hours := 0x80#8, weekday := 0xFF#8, day := 0xC0#8, month := 0xC0#8,
    year := 0x00#8, control := 0xFF#8 }

/-- The full mask keeps a byte. -/
theorem and_fullMask (x : Byte) : x &&& 0xFF#8 = x := BitVec.and_allOnes

/-- CFGE keeps every bit that R193 says. -/
theorem kept_encodeConfig (cfg : ClockConfig) (b : Image) :
    kept configKeep (encodeConfig cfg b) = kept configKeep b := by
  have hsec (v : Bool) (x : Byte) : putBit x 7 v &&& 0x7F#8 = x &&& 0x7F#8 := by
    rw [putBit_7, BitVec.and_or_distrib_right]
    cases v <;> simp [BitVec.and_assoc]
  have hctl (v : Bool) (x : Byte) : putBit x 3 v &&& 0xF7#8 = x &&& 0xF7#8 := by
    rw [putBit_3, BitVec.and_or_distrib_right]
    cases v <;> simp [BitVec.and_assoc]
  simp only [kept, configKeep, encodeConfig, oscEnBit, extOscBit, hsec, hctl]

/-- ENCT keeps every bit that R174 says, since the digits of a valid time leave those bits clear. -/
theorem kept_encodeTime {ts : Timestamp} (hvalid : tsValid ts = true) (b : Image) :
    kept timeKeep (encodeTime ts b) = kept timeKeep b := by
  obtain ⟨-, hmonth, -, hday, hhour, hminute, hsecond⟩ := valid_ranges hvalid
  simp only [kept, timeKeep, encodeTime, keepSec, keepMin, keepHr, keepDay, keepMon, BitVec.and_zero,
    (merge_80 b.seconds _ hsecond).1, (merge_80 b.minutes _ hminute).1, (merge_80 b.hours _ (hhour.trans (by omega))).1,
    (merge_C0 b.day _ (hday.trans (by omega))).1, (merge_C0 b.month _ (hmonth.trans (by omega))).1]

/-- Settles O50: CONFIGURE_CLOCK writes back an image in which CFGE has kept every bit but two. -/
theorem configureClockKeepsUnmodelledBits : Obligations.ConfigureClockKeepsUnmodelledBits := by
  intro s cfg rest t hawaits hread hrun
  obtain ⟨hphase, hpending, hkept⟩ :=
    (writesBack_configureClock cfg).kept_bank (kept_encodeConfig cfg) hawaits hread hrun
  simp only [kept, configKeep, and_fullMask, Image.mk.injEq] at hkept
  obtain ⟨hsec, hmin, hhour, hweek, hday, hmonth, hyear, hctl⟩ := hkept
  exact ⟨hphase, hpending, hsec, hctl, hmin, hhour, hweek, hday, hmonth, hyear⟩

/-- Settles O51: SET_DATETIME writes back an image in which ENCT has kept the unrelated bits. -/
theorem setDatetimeKeepsUnrelatedBits : Obligations.SetDatetimeKeepsUnrelatedBits := by
  intro s ts rest t hawaits hread hmin hmax hrun
  have hvalid : tsValid ts = true := wellFormed_of_run hawaits hrun
  have hyear : yearInRange ts.year = true := (yearInRange_iff _).2 ⟨hmin, hmax⟩
  obtain ⟨hphase, hpending, hkept⟩ :=
    (writesBack_setDatetime hvalid hyear).kept_bank (kept_encodeTime hvalid) hawaits hread hrun
  simp only [kept, timeKeep, and_fullMask, Image.mk.injEq] at hkept
  obtain ⟨hsec, hmin, hhour, hweek, hday, hmonth, -, hctl⟩ := hkept
  exact ⟨hphase, hpending, hsec, hmin, hhour, hweek, hday, hmonth, hctl⟩

end Sys2Proof.Machine
end

section
/-! SUPPORT. The operation word and its operation (family 30_encoding): the codes and the byte that carries one,
the ports an operation reads, and the reserved codes. -/

namespace Sys2Proof.Machine

/-! ### The ports an operation reads (R81) -/

/-- Inputs that agree on the ports R81 lists for an operation have the same outcome. -/
theorem outcomeOf_congr {i : Instr} {p q : Inputs} (hdect : i = .dect → p.img = q.img)
    (henct : i = .enct → p.img = q.img ∧ p.ts = q.ts) (hcfge : i = .cfge → p.img = q.img ∧ p.cfg = q.cfg)
    (hcfgd : i = .cfgd → p.img.seconds = q.img.seconds ∧ p.img.control = q.img.control)
    (hoscs : i = .oscs → p.img.weekday = q.img.weekday) : outcomeOf i p = outcomeOf i q := by
  cases i with
  | dect => simp only [outcomeOf, hdect rfl]
  | enct =>
    obtain ⟨himg, hts⟩ := henct rfl
    simp only [outcomeOf, himg, hts]
  | cfge =>
    obtain ⟨himg, hcfg⟩ := hcfge rfl
    simp only [outcomeOf, himg, hcfg]
  | cfgd =>
    obtain ⟨hsec, hctl⟩ := hcfgd rfl
    simp only [outcomeOf, decodeConfig, hsec, hctl]
  | oscs => simp only [outcomeOf, oscRunning, hoscs rfl]
  | reserved101 | reserved110 | reserved111 => rfl

/-- States whose inputs have the same outcome are driven to the same outputs, or both refused. -/
theorem exec_congr {i : Instr} {s s' : State} (h : outcomeOf i s.inp = outcomeOf i s'.inp) :
    (∀ t, exec i s = .next t → exec i s' = .next (s'.drive t.out)) ∧
    (∀ r, exec i s = .refused r → exec i s' = .refused r) := by
  cases ho : outcomeOf i s.inp with
  | some o =>
    rw [exec_of_outcomeOf_some ho, exec_of_outcomeOf_some (h ▸ ho)]
    exact ⟨fun t ht => (by cases ht; rfl), fun r hr => (by cases hr)⟩
  | none =>
    rw [exec_of_outcomeOf_none ho, exec_of_outcomeOf_none (h ▸ ho)]
    exact ⟨fun t ht => (by cases ht), fun r hr => hr⟩

/-- Settles O32: by `outcomeOf_congr` the outcome is a function of the ports read, and by `exec_congr` it decides
the evaluation. -/
theorem operationsReadOnlyTheirPorts : Obligations.OperationsReadOnlyTheirPorts := by
  intro i s p q hdect henct hcfge hcfgd hoscs
  exact exec_congr (s := { s with inp := p }) (s' := { s with inp := q })
    (outcomeOf_congr hdect henct hcfge hcfgd hoscs)

/-! ### The codes and their byte (R80, R85, R87) -/

/-- Settles O1: each code is the word of its operation, so `decodeOp_encode` reads it back. -/
theorem operationCodesSelect : Obligations.OperationCodesSelect :=
  ⟨decodeOp_encode .dect, decodeOp_encode .enct, decodeOp_encode .cfge, decodeOp_encode .cfgd,
    decodeOp_encode .oscs, decodeOp_encode .reserved101, decodeOp_encode .reserved110, decodeOp_encode .reserved111⟩

/-- Every word is the code of the operation it selects: no two of the eight words select the same one. -/
@[simp] theorem encode_decodeOp (w : OpWord) : encode (decodeOp w) = w := by
  revert w; decide

/-- The byte of an operation's word, read at the head of a byte list. -/
theorem decodeBytes_encodeBytes_append (i : Instr) (rest : List Byte) :
    decodeBytes (encodeBytes i ++ rest) = .ok (i, rest) := by
  have hword : ((encode i).setWidth 8).setWidth 3 = encode i := by
    rw [BitVec.setWidth_setWidth_of_le _ (by omega), BitVec.setWidth_eq]
  simp only [encodeBytes, List.singleton_append, decodeBytes, hword, decodeOp_encode]

/-- Settles O2: the byte keeps the word, and the words and the operations are in bijection. -/
theorem decodeAndEncodeAgree : Obligations.DecodeAndEncodeAgree :=
  ⟨decodeBytes_encodeBytes_append, encode_decodeOp⟩

/-! ### The reserved codes (R85) -/

/-- Settles O28: the outcome of a reserved operation is E_ILLEGAL_OP whatever its inputs. -/
theorem reservedCodesReportIllegalOp : Obligations.ReservedCodesReportIllegalOp := fun _ =>
  ⟨exec_of_outcomeOf_some rfl, exec_of_outcomeOf_some rfl, exec_of_outcomeOf_some rfl⟩

end Sys2Proof.Machine
end

section
/-! SUPPORT. The BCD converters and the time image (family 40_bcd_primitives): the decoders as arithmetic on the
byte, packing and reading back under kept bits, the Gregorian calendar, and when an image reads as a timestamp. -/

namespace Sys2Proof.Machine

/-! ### The field decoders (R100, R101) -/

theorem decT3_eq (b : Byte) : decT3 b = 10 * (b.toNat / 16 % 8) + b.toNat % 16 := by
  rw [decT3, bcd2bin, bits_6_4, bits_3_0]

theorem decT2_eq (b : Byte) : decT2 b = 10 * (b.toNat / 16 % 4) + b.toNat % 16 := by
  rw [decT2, bcd2bin, bits_5_4, bits_3_0]

theorem decT1_eq (b : Byte) : decT1 b = 10 * (b.toNat / 16 % 2) + b.toNat % 16 := by
  rw [decT1, bcd2bin, bits_4_4, bits_3_0]

theorem decT4_eq (b : Byte) : decT4 b = 10 * (b.toNat / 16) + b.toNat % 16 := by
  rw [decT4, bcd2bin, bits_7_4, bits_3_0]

/-- Settles O4: the tens and ones bits are a quotient and a remainder of the byte. -/
theorem fieldDecodersAssembleDigits : Obligations.FieldDecodersAssembleDigits :=
  ⟨fun _ _ => rfl, fun b => ⟨decT3_eq b, decT2_eq b, decT1_eq b, decT4_eq b⟩⟩

/-! ### Packed digits (R103, R104) -/

theorem bin2bcd_toNat {v : Nat} (hv : v ≤ 99) : (bin2bcd v).toNat = 16 * (v / 10) + v % 10 := by
  rw [bin2bcd_eq v hv, BitVec.toNat_ofNat, Nat.mod_eq_of_lt (by omega)]

/-- Settles O5: both digits fit their nibbles. -/
theorem binaryToBcdPacksDigits : Obligations.BinaryToBcdPacksDigits := fun _ hv => bin2bcd_toNat hv

/-- A byte below `2 ^ n` has no bit in a mask of bits from `n` up. -/
theorem and_eq_zero_of_toNat_lt {n : Nat} {x keep : Byte} (hx : x.toNat < 2 ^ n) (hkeep : keep.toNat % 2 ^ n = 0) :
    x &&& keep = 0#8 := by
  apply BitVec.eq_of_toNat_eq
  calc (x &&& keep).toNat
      = (x.toNat &&& keep.toNat) % 2 ^ n := by
        rw [BitVec.toNat_and, Nat.mod_eq_of_lt (Nat.and_le_left.trans_lt hx)]
    _ = 0 := by rw [Nat.and_mod_two_pow, hkeep, Nat.and_zero]

/-- Settles O6: a bound on the tens digit bounds the packed byte. -/
theorem packedDigitsLeaveKeptBitsClear : Obligations.PackedDigitsLeaveKeptBitsClear := by
  refine ⟨fun v hv => and_eq_zero_of_toNat_lt (n := 7) ?_ rfl, fun v hv => and_eq_zero_of_toNat_lt (n := 6) ?_ rfl,
    fun v hv => and_eq_zero_of_toNat_lt (n := 5) ?_ rfl⟩ <;>
  · rw [bin2bcd_toNat (by omega)]
    omega

/-! ### Reading back what was packed (R105) -/

/-- Kept bits from `n` up leave the low `n` bits of a merged byte to the packed digits. -/
theorem merge_toNat_mod {n v : Nat} {keep : Byte} (old : Byte) (hkeep : keep.toNat % 2 ^ n = 0) (hv : v ≤ 99) :
    (merge keep old v).toNat % 2 ^ n = (16 * (v / 10) + v % 10) % 2 ^ n := by
  rw [merge, BitVec.toNat_or, BitVec.toNat_and, Nat.or_mod_two_pow, Nat.and_mod_two_pow, hkeep, Nat.and_zero,
    Nat.zero_or, bin2bcd_toNat hv]

section
variable {keep : Byte} {v : Nat} (old : Byte)

theorem decT3_merge (hkeep : keep.toNat % 2 ^ 7 = 0) (hv : v ≤ 59) : decT3 (merge keep old v) = v := by
  have hlow := merge_toNat_mod old hkeep (hv.trans (by omega))
  rw [decT3_eq]
  omega

theorem decT2_merge (hkeep : keep.toNat % 2 ^ 6 = 0) (hv : v ≤ 39) : decT2 (merge keep old v) = v := by
  have hlow := merge_toNat_mod old hkeep (hv.trans (by omega))
  rw [decT2_eq]
  omega

theorem decT1_merge (hkeep : keep.toNat % 2 ^ 5 = 0) (hv : v ≤ 19) : decT1 (merge keep old v) = v := by
  have hlow := merge_toNat_mod old hkeep (hv.trans (by omega))
  rw [decT1_eq]
  omega

end

theorem decT4_bin2bcd {v : Nat} (hv : v ≤ 99) : decT4 (bin2bcd v) = v := by
  rw [decT4_eq, bin2bcd_toNat hv]
  omega

/-- Merging a year keeps no bit of the old byte (R171). -/
theorem merge_keepYear (old : Byte) (v : Nat) : merge keepYear old v = bin2bcd v := by
  rw [merge, keepYear, BitVec.and_zero, BitVec.zero_or]

/-- Settles O7: the masks keep only bits above the field that is read. -/
theorem bcdRoundTripUnderKeptBits : Obligations.BcdRoundTripUnderKeptBits :=
  ⟨fun _ k hv => decT3_merge (keep := 0x80#8) k rfl hv, fun _ k hv => decT2_merge (keep := 0xC0#8) k rfl hv,
    fun _ k hv => decT1_merge (keep := 0xE0#8) k rfl hv, fun _ hv => decT4_bin2bcd hv⟩

/-! ### Hours (R106) -/

/-- `conv12` with both halves of the day spelled out. -/
theorem conv12_eq (h : Nat) (pm : Bool) :
    conv12 h pm = if pm = true ∧ h ≠ 12 then h + 12 else if pm = false ∧ h = 12 then 0 else h := by
  simp only [conv12, Bool.not_eq_true]

/-- Settles O8: hour 12 by evaluation, every other hour by `conv12_eq`. -/
theorem twelveHourConversion : Obligations.TwelveHourConversion :=
  ⟨rfl, rfl, fun h hne => by simp [conv12_eq, hne]⟩

/-! ### The calendar (R108-R110) -/

theorem leap_iff (y : Int) : leap y = true ↔ (4 ∣ y ∧ ¬ 100 ∣ y) ∨ 400 ∣ y := by
  simp only [leap, Bool.or_eq_true, Bool.and_eq_true, beq_iff_eq, bne_iff_ne, ne_eq, Int.dvd_iff_emod_eq_zero]

/-- The month lengths of R109 with the Gregorian leap years of R110. -/
theorem daysInMonth_eq (y : Int) {mo : Nat} (hmin : 1 ≤ mo) (hmax : mo ≤ 12) :
    daysInMonth y mo = if mo = 2 then (if (4 ∣ y ∧ ¬ 100 ∣ y) ∨ 400 ∣ y then 29 else 28)
      else if mo = 4 ∨ mo = 6 ∨ mo = 9 ∨ mo = 11 then 30 else 31 := by
  simp only [← leap_iff]
  interval_cases mo <;> rfl

theorem valid_iff (y : Int) (mo d h mi s : Nat) : valid y mo d h mi s = true ↔
    1 ≤ mo ∧ mo ≤ 12 ∧ 1 ≤ d ∧ d ≤ daysInMonth y mo ∧ h ≤ 23 ∧ mi ≤ 59 ∧ s ≤ 59 := by
  simp only [valid, Bool.and_eq_true, decide_eq_true_eq, and_assoc]

/-- Settles O9: `valid` checks the ranges, and within them `daysInMonth` is the Gregorian length. -/
theorem validDatesAreGregorian : Obligations.ValidDatesAreGregorian := by
  intro y mo d h mi s
  rw [valid_iff]
  constructor
  · rintro ⟨hmin, hmax, hd1, hd, hh, hmi, hs⟩
    exact ⟨hmin, hmax, hd1, hh, hmi, hs, daysInMonth_eq y hmin hmax ▸ hd⟩
  · rintro ⟨hmin, hmax, hd1, hh, hmi, hs, hd⟩
    exact ⟨hmin, hmax, hd1, (daysInMonth_eq y hmin hmax).symm ▸ hd, hh, hmi, hs⟩

/-! ### What an image reads as (R130-R140) -/

/-- The fields of a timestamp are those that the decoders read in an image. -/
structure ReadsAs (b : Image) (ts : Timestamp) : Prop where
  second : ts.second.toNat = decT3 b.seconds
  minute : ts.minute.toNat = decT3 b.minutes
  hour : ts.hour.toNat = decHour b.hours
  day : ts.day.toNat = decT2 b.day
  month : ts.month.toNat = decT1 b.month
  year : ts.year = 2000 + (decT4 b.year : Int)

/-- An image that reads as a valid date and time decodes to it (R130). -/
theorem decodeTime_of_readsAs {b : Image} {ts : Timestamp} (hread : ReadsAs b ts) (hvalid : tsValid ts = true) :
    decodeTime b = some ts := by
  obtain ⟨hs, hmi, hh, hd, hmo, hy⟩ := hread
  simp only [decodeTime, centuryBase, ← hs, ← hmi, ← hh, ← hd, ← hmo, ← hy, BitVec.ofNat_toNat, BitVec.setWidth_eq]
  exact if_pos hvalid

/-- Fields that form a valid date and time fit the widths of a timestamp (R15). -/
theorem exists_readsAs {b : Image} (hvalid : valid (2000 + (decT4 b.year : Int)) (decT1 b.month) (decT2 b.day)
    (decHour b.hours) (decT3 b.minutes) (decT3 b.seconds) = true) : ∃ ts, ReadsAs b ts ∧ tsValid ts = true := by
  obtain ⟨-, hmo, -, hd, hh, hmi, hs⟩ := valid_ranges hvalid
  have hread : ReadsAs b
      { year := 2000 + (decT4 b.year : Int), month := BitVec.ofNat 4 (decT1 b.month), day := BitVec.ofNat 5 (decT2 b.day),
        hour := BitVec.ofNat 5 (decHour b.hours), minute := BitVec.ofNat 6 (decT3 b.minutes),
        second := BitVec.ofNat 6 (decT3 b.seconds) } :=
    { second := Nat.mod_eq_of_lt (by omega)
      minute := Nat.mod_eq_of_lt (by omega)
      hour := Nat.mod_eq_of_lt (by omega)
      day := Nat.mod_eq_of_lt (by omega)
      month := Nat.mod_eq_of_lt (by omega)
      year := rfl }
  refine ⟨_, hread, ?_⟩
  rw [tsValid, hread.second, hread.minute, hread.hour, hread.day, hread.month]
  exact hvalid

/-- DECT of an image that reads as a valid date and time drives it. -/
theorem exec_dect_of_readsAs {s : State} {ts : Timestamp} (hread : ReadsAs s.inp.img ts) (hvalid : tsValid ts = true) :
    exec .dect s = .next (s.drive (.dect ts)) :=
  exec_of_outcomeOf_some (by simp only [outcomeOf, decodeTime_of_readsAs hread hvalid])

/-- Settles O12: in 12-hour mode the hour an image reads as is the converted one. -/
theorem dectConvertsTwelveHourMode : Obligations.DectConvertsTwelveHourMode := by
  intro s
  simp only [← decT3_eq, ← decT2_eq, ← decT1_eq, ← decT4_eq, ← conv12_eq]
  intro hmode hvalid
  rw [← decHour_mode12 hmode] at hvalid ⊢
  obtain ⟨ts, hread, hts⟩ := exists_readsAs hvalid
  exact ⟨ts, exec_dect_of_readsAs hread hts, hread.second, hread.minute, hread.hour, hread.day, hread.month, hread.year⟩

/-! ### The round trip of the time image (R173) -/

/-- The image ENCT makes of a valid timestamp of 2000..2099 reads as that timestamp. -/
theorem readsAs_encodeTime {ts : Timestamp} (hvalid : tsValid ts = true) (hmin : 2000 ≤ ts.year) (hmax : ts.year ≤ 2099)
    (b : Image) : ReadsAs (encodeTime ts b) ts := by
  obtain ⟨-, hmonth, -, hday, hhour, hminute, hsecond⟩ := valid_ranges hvalid
  constructor
  case second => exact (decT3_merge b.seconds rfl hsecond).symm
  case minute => exact (decT3_merge b.minutes rfl hminute).symm
  case hour => exact (decHour_merge b.hours _ hhour).symm
  case day => exact (decT2_merge b.day rfl (by omega)).symm
  case month => exact (decT1_merge b.month rfl (by omega)).symm
  case year =>
    simp only [encodeTime, merge_keepYear, centuryBase]
    rw [decT4_bin2bcd (by omega)]
    omega

/-- ENCT of a valid timestamp of 2000..2099 drives the image with that timestamp merged in. -/
theorem exec_enct_of_valid {s : State} (hvalid : tsValid s.inp.ts = true) (hmin : 2000 ≤ s.inp.ts.year)
    (hmax : s.inp.ts.year ≤ 2099) : exec .enct s = .next (s.drive (.enct (encodeTime s.inp.ts s.inp.img))) :=
  exec_of_outcomeOf_some (by simp only [outcomeOf, hvalid, (yearInRange_iff _).2 ⟨hmin, hmax⟩, if_true])

/-- Settles O21: the encoded image reads as the timestamp, whatever image it was merged into. -/
theorem dectOfEnctIsIdentity : Obligations.DectOfEnctIsIdentity := by
  intro s hvalid hmin hmax
  have hread := readsAs_encodeTime hvalid hmin hmax s.inp.img
  exact ⟨_, _, _, exec_enct_of_valid hvalid hmin hmax, rfl, exec_dect_of_readsAs hread hvalid, rfl⟩

end Sys2Proof.Machine
end

section
/-! SUPPORT. Decoding the time image (family 41_decode_time): an image that forms no date, and the bits of an image
that decoding reads. -/

namespace Sys2Proof.Machine

/-! ### An image that forms a date, and one that does not (R131-R140) -/

/-- Settles O10: an image whose fields are valid reads as a timestamp, in either hour mode. -/
theorem dectDecodesFieldsInBothModes : Obligations.DectDecodesFieldsInBothModes := by
  intro s
  simp only [← decT3_eq, ← decT2_eq, ← decT1_eq]
  intro hvalid
  obtain ⟨ts, hread, hts⟩ := exists_readsAs hvalid
  exact ⟨ts, exec_dect_of_readsAs hread hts, hread.second, hread.minute, hread.day, hread.month⟩

/-- Settles O11: in 24-hour mode the hour an image reads as is its two digits. -/
theorem dectDecodesFieldsInTwentyFourHourMode : Obligations.DectDecodesFieldsInTwentyFourHourMode := by
  intro s
  simp only [← decT3_eq, ← decT2_eq, ← decT1_eq, ← decT4_eq]
  intro hmode hvalid
  rw [← decHour_mode24 hmode] at hvalid ⊢
  obtain ⟨ts, hread, hts⟩ := exists_readsAs hvalid
  exact ⟨ts, exec_dect_of_readsAs hread hts, hread.second, hread.minute, hread.hour, hread.day, hread.month, hread.year⟩

/-- An image whose fields form no valid date and time does not decode (R140). -/
theorem decodeTime_eq_none {b : Image} (hinvalid : valid (2000 + (decT4 b.year : Int)) (decT1 b.month) (decT2 b.day)
    (decHour b.hours) (decT3 b.minutes) (decT3 b.seconds) = false) : decodeTime b = none :=
  if_neg (ne_true_of_eq_false hinvalid)

/-- Settles O13: an image either does not decode or reads as a timestamp. -/
theorem dectRejectsWhatIsNoDate : Obligations.DectRejectsWhatIsNoDate := by
  refine fun s => ⟨fun hinvalid => ?_, fun hvalid => ?_⟩
  · exact exec_of_outcomeOf_some (by simp only [outcomeOf, decodeTime_eq_none hinvalid])
  · obtain ⟨ts, hread, hts⟩ := exists_readsAs hvalid
    exact ⟨ts, exec_dect_of_readsAs hread hts⟩

/-! ### The bits that decoding reads (R130, R136) -/

/-- A mask with the low `n` bits set leaves the low `n` bits of a byte. -/
theorem and_toNat_mod {n : Nat} {mask : Byte} (b : Byte) (hmask : mask.toNat % 2 ^ n = 2 ^ n - 1) :
    (b &&& mask).toNat % 2 ^ n = b.toNat % 2 ^ n := by
  rw [BitVec.toNat_and, Nat.and_mod_two_pow, hmask, Nat.and_two_pow_sub_one_eq_mod, Nat.mod_mod]

section
variable {mask : Byte} (b : Byte)

theorem decT3_and (hmask : mask.toNat % 2 ^ 7 = 2 ^ 7 - 1) : decT3 (b &&& mask) = decT3 b := by
  have hlow := and_toNat_mod b hmask
  simp only [decT3_eq]
  omega

theorem decT2_and (hmask : mask.toNat % 2 ^ 6 = 2 ^ 6 - 1) : decT2 (b &&& mask) = decT2 b := by
  have hlow := and_toNat_mod b hmask
  simp only [decT2_eq]
  omega

theorem decT1_and (hmask : mask.toNat % 2 ^ 5 = 2 ^ 5 - 1) : decT1 (b &&& mask) = decT1 b := by
  have hlow := and_toNat_mod b hmask
  simp only [decT1_eq]
  omega

end

/-- The mode bit, the PM bit and the digits all lie below bit 7 (R136). -/
theorem decHour_and (b : Byte) : decHour (b &&& 0x7F#8) = decHour b := by
  have hbit6 : (b &&& 0x7F#8).getLsbD 6 = b.getLsbD 6 := by simp
  have hbit5 : (b &&& 0x7F#8).getLsbD 5 = b.getLsbD 5 := by simp
  cases hmode : b.getLsbD 6 with
  | true => rw [decHour_mode12 (hbit6.trans hmode), decHour_mode12 hmode, hbit5, decT1_and b rfl]
  | false => rw [decHour_mode24 (hbit6.trans hmode), decHour_mode24 hmode, decT2_and b rfl]

/-- The image with only the bits that R131 to R139 read: the others, and registers 0x03 and 0x07, are clear. -/
def fieldBits (b : Image) : Image :=
  { seconds := b.seconds &&& 0x7F#8
    minutes := b.minutes &&& 0x7F#8
    hours := b.hours &&& 0x7F#8
    weekday := 0#8
    day := b.day &&& 0x3F#8
    month := b.month &&& 0x1F#8
    year := b.year
    control := 0#8 }

/-- Decoding reads nothing but the field bits. -/
theorem decodeTime_fieldBits (b : Image) : decodeTime (fieldBits b) = decodeTime b := by
  simp only [decodeTime, fieldBits, decT3_and (mask := 0x7F#8) _ rfl, decHour_and, decT2_and (mask := 0x3F#8) _ rfl,
    decT1_and (mask := 0x1F#8) _ rfl]

/-- Settles O15: images that agree on every masked register have the same field bits. -/
theorem dectIgnoresBitsOutsideTheFields : Obligations.DectIgnoresBitsOutsideTheFields := by
  intro s a b hsec hmin hhour hday hmonth hyear
  have hfields : fieldBits a = fieldBits b := by
    simp only [fieldBits, hsec, hmin, hhour, hday, hmonth, hyear]
  have hdecode : decodeTime b = decodeTime a := by
    rw [← decodeTime_fieldBits b, ← hfields, decodeTime_fieldBits a]
  exact ⟨_, exec_of_outcomeOf_some rfl, exec_of_outcomeOf_some (by simp only [outcomeOf, hdecode])⟩

end Sys2Proof.Machine
end

section
/-! SUPPORT. Encoding the time image (family 42_encode_time): when ENCT drives an image, is refused or reports a
range error, and which bits of the image come from the timestamp. -/

namespace Sys2Proof.Machine

/-! ### The outcomes of ENCT (R161, R162) -/

/-- Settles O18: a timestamp that is not a date has no outcome. -/
theorem enctRefusesInvalidTimestamp : Obligations.EnctRefusesInvalidTimestamp := by
  intro s hinvalid
  exact exec_of_outcomeOf_none (by simp only [outcomeOf, hinvalid, Bool.false_eq_true, if_false])

/-- Settles O17: of a valid timestamp, ENCT only asks whether the year is in range. -/
theorem enctRejectsYearOutOfRange : Obligations.EnctRejectsYearOutOfRange := by
  intro s hvalid hout
  have hyear : ¬ yearInRange s.inp.ts.year = true := by rw [yearInRange_iff]; omega
  exact exec_of_outcomeOf_some (by simp only [outcomeOf, hvalid, if_true, if_neg hyear])

/-- If ENCT drives an image, the timestamp is a date of 2000..2099 and the image is that of `exec_enct_of_valid`. -/
theorem exec_enct_img {s t : State} {img : Image} (hexec : exec .enct s = .next t) (himg : readImgOut t.out = .ok img) :
    tsValid s.inp.ts = true ∧ 2000 ≤ s.inp.ts.year ∧ s.inp.ts.year ≤ 2099 ∧ img = encodeTime s.inp.ts s.inp.img := by
  cases hvalid : tsValid s.inp.ts with
  | false => rw [enctRefusesInvalidTimestamp s hvalid] at hexec; cases hexec
  | true =>
    by_cases hyear : 2000 ≤ s.inp.ts.year ∧ s.inp.ts.year ≤ 2099
    · rw [exec_enct_of_valid hvalid hyear.1 hyear.2] at hexec
      cases hexec
      cases himg
      exact ⟨rfl, hyear.1, hyear.2, rfl⟩
    · rw [enctRejectsYearOutOfRange s hvalid (by omega)] at hexec
      cases hexec
      cases himg

/-! ### The image that ENCT drives (R163-R172) -/

/-- Settles O16: the packed digits of each field are a quotient and a remainder of it. -/
theorem enctWritesEveryRegister : Obligations.EnctWritesEveryRegister := by
  intro s hvalid hmin hmax
  obtain ⟨-, hmonth, -, hday, hhour, hminute, hsecond⟩ := valid_ranges hvalid
  simp only [← bin2bcd_eq s.inp.ts.second.toNat (by omega), ← bin2bcd_eq s.inp.ts.minute.toNat (by omega),
    ← bin2bcd_eq s.inp.ts.hour.toNat (by omega), ← bin2bcd_eq s.inp.ts.day.toNat (by omega),
    ← bin2bcd_eq s.inp.ts.month.toNat (by omega), ← bin2bcd_eq (s.inp.ts.year - 2000).toNat (by omega),
    ← merge_keepYear s.inp.img.year (s.inp.ts.year - 2000).toNat]
  exact exec_enct_of_valid hvalid hmin hmax

/-- Settles O20: an encoded hours byte has the mode bit clear and reads as the hour. -/
theorem enctSwitchesToTwentyFourHourMode : Obligations.EnctSwitchesToTwentyFourHourMode := by
  intro s t img hexec himg
  obtain ⟨hvalid, hmin, hmax, rfl⟩ := exec_enct_img hexec himg
  exact ⟨(encodeTime_mode hvalid).1, (readsAs_encodeTime hvalid hmin hmax s.inp.img).hour.symm⟩

/-! ### The bits that ENCT keeps and the bits that it sets (R174) -/

/-- The bits that ENCT sets from the timestamp: those that `timeKeep` does not keep. -/
def timeSet : Image :=
  { seconds := 0x7F#8, minutes := 0x7F#8, hours := 0x7F#8, weekday := 0x00#8, day := 0x3F#8, month := 0x3F#8,
    year := 0xFF#8, control := 0x00#8 }

/-- The bits that ENCT sets do not depend on the image it merges into. -/
theorem kept_timeSet_encodeTime {ts : Timestamp} (hvalid : tsValid ts = true) (b c : Image) :
    kept timeSet (encodeTime ts b) = kept timeSet (encodeTime ts c) := by
  obtain ⟨-, hmonth, -, hday, hhour, hminute, hsecond⟩ := valid_ranges hvalid
  have h7F {v : Nat} (hv : v ≤ 59) (x : Byte) : merge 0x80#8 x v &&& 0x7F#8 = bin2bcd v := (merge_80 x v hv).2
  have h3F {v : Nat} (hv : v ≤ 39) (x : Byte) : merge 0xC0#8 x v &&& 0x3F#8 = bin2bcd v := (merge_C0 x v hv).2
  simp only [kept, timeSet, encodeTime, keepSec, keepMin, keepHr, keepDay, keepMon, merge_keepYear, BitVec.and_zero,
    h7F hsecond, h7F hminute, h7F (hhour.trans (by omega)), h3F (hday.trans (by omega)), h3F (hmonth.trans (by omega))]

/-- Settles O19: `kept_encodeTime` for the kept bits, `kept_timeSet_encodeTime` for the others. -/
theorem enctPreservesUnrelatedBits : Obligations.EnctPreservesUnrelatedBits := by
  refine ⟨fun s t img hexec himg => ?_, fun s s' t t' img img' hexec hexec' hts himg himg' => ?_⟩
  · obtain ⟨hvalid, -, -, rfl⟩ := exec_enct_img hexec himg
    have hkept := kept_encodeTime hvalid s.inp.img
    simp only [kept, timeKeep, and_fullMask, Image.mk.injEq] at hkept
    obtain ⟨hsec, hmin, hhour, hweek, hday, hmonth, -, hctl⟩ := hkept
    exact ⟨hsec, hmin, hhour, hweek, hday, hmonth, hctl⟩
  · obtain ⟨hvalid, -, -, rfl⟩ := exec_enct_img hexec himg
    obtain ⟨-, -, -, rfl⟩ := exec_enct_img hexec' himg'
    have hset := kept_timeSet_encodeTime hvalid s.inp.img s'.inp.img
    simp only [kept, timeSet, and_fullMask, Image.mk.injEq] at hset
    obtain ⟨hsec, hmin, hhour, -, hday, hmonth, hyear, -⟩ := hset
    exact hts ▸ ⟨hsec, hmin, hhour, hday, hmonth, hyear⟩

end Sys2Proof.Machine
end

section
/-! SUPPORT. The host sequences while the peripheral changes nothing and the transactions complete (family
42_encode_time): what a sequence evaluates, what SET_DATETIME and NOW return, and what they leave in the bank. -/

namespace Sys2Proof.Machine

open Sys2Proof.Safety

/-! ### Calm steps -/

theorem calm_mono {s : State} {n m : Nat} (h : Calm n s) (hle : m ≤ n) : Calm m s :=
  fun k hk => h k (hk.trans_le hle)

/-- What remains of a calm stretch after its first `n` steps. -/
theorem calm_after {s t : State} {n m : Nat} (h : Calm (n + m) s) (hmoves : ∀ k, t.moveAt k = s.moveAt (k + n)) :
    Calm m t := fun k hk => (hmoves k).trans (h _ (by omega))

/-- In a calm step the peripheral makes no change of its own. -/
theorem changeAll_of_calm {s : State} {n k : Nat} (h : Calm n s) (hk : k < n) (b : Image) :
    changeAll (s.moveAt k).changes b = b := by
  rw [h k hk]; rfl

theorem passTime_bank_of_calm {s : State} {n : Nat} (h : Calm n s) (hn : 0 < n) : s.passTime.bank = s.bank :=
  changeAll_of_calm h hn s.bank

/-- A write of R59 while the peripheral changes nothing (R57). -/
theorem busWrite_quiet {v : List Byte} (hlen : v.length = 7 ∨ v.length = 8) (bank : Image) :
    busWrite devAddr (writeFrame 0x00#8 v) quiet bank = some (.done, placeAt 0 v bank) := by
  obtain ⟨bank', hwrite, -, hbank⟩ := busWrite_answers hlen quiet bank
  rw [hbank rfl, updatedBy_of_completed rfl, placeSelected_all] at hwrite
  exact hwrite

/-- The bytes that a sequence's read answers while the peripheral changes nothing. -/
def bytesRead (c : BusCall) (bank : Image) : List Byte :=
  ((regsOf bank).drop (readSpan c).1.toNat).take (readSpan c).2

/-- A sequence's read while the peripheral changes nothing (R56). -/
theorem busWriteRead_quiet (c : BusCall) (bank : Image) :
    busWriteRead devAddr [(readSpan c).1] (readSpan c).2 quiet bank = some (.data (bytesRead c bank), bank) := by
  refine quietReadReturnsTheRegisters bank _ _ none 0#8 ?_
  cases c <;> simp [readSpan]

/-! ### The stretches of a calm sequence -/

/-- Four steps from `s`, in `t`, the block has evaluated the operation of the sequence `c` on the registers read, over
some image in the bytes that the sequence leaves open. -/
structure Evaluated (s : State) (c : BusCall) (rest : List Request) (t : State) : Prop where
  steps : ∀ k, run (k + 4) s = run k t
  op : t.op = none
  out : ∃ free, outcomeOf (operationOf c) (inputsOf c (bytesRead c s.bank) free s.inp) = some t.out
  bank : t.bank = s.bank
  handle : t.handle = .session
  phase : t.phase = .evaluating c
  pending : t.pending = rest
  returned : t.returned = s.returned
  transactions : t.transactions = [.writeRead devAddr [(readSpan c).1] (readSpan c).2]
  moves : ∀ k, t.moveAt k = s.moveAt (k + 4)

/-- `n` steps from `s`, in `t`, the sequence under way has returned `r`: the machine is between requests, its session
open and `rest` still to be done. -/
structure Returns (s : State) (n : Nat) (rest : List Request) (r : CallResult) (t : State) : Prop where
  steps : ∀ k, run (k + n) s = run k t
  op : t.op = none
  handle : t.handle = .session
  phase : t.phase = .idle
  pending : t.pending = rest
  returned : t.returned = r :: s.returned
  moves : ∀ k, t.moveAt k = s.moveAt (k + n)

/-- The next call of the program is awaited when a sequence has returned. -/
theorem Returns.awaits {s t : State} {n : Nat} {c : BusCall} {rest : List Request} {r : CallResult}
    (h : Returns s n (.call (.onBus c) :: rest) r t) : Awaits c rest t :=
  ⟨h.op, h.phase, h.handle, h.pending⟩

/-- A sequence that returns from its evaluation returns as a whole. -/
theorem Evaluated.returns {s u t : State} {c : BusCall} {rest : List Request} {n : Nat} {r : CallResult}
    (h : Evaluated s c rest u) (hret : Returns u n rest r t) : Returns s (n + 4) rest r t :=
  { hret with
    steps := fun k => (h.steps (k + n)).trans (hret.steps k)
    returned := h.returned ▸ hret.returned
    moves := fun k => (hret.moves k).trans (h.moves (k + n)) }

/-- A calm sequence that has been asked for comes to its evaluation. -/
theorem exists_evaluated {s : State} {c : BusCall} {rest : List Request} (h : Awaits c rest s)
    (hbegins : ∀ u, beginBusCall c u = .next (u.withPhase (.reading c))) (hcalm : Calm 4 s)
    (houtcome : ∀ free, ∃ o, outcomeOf (operationOf c) (inputsOf c (bytesRead c s.bank) free s.inp) = some o) :
    ∃ t, Evaluated s c rest t := by
  have hread : busWriteRead devAddr [(readSpan c).1] (readSpan c).2 (s.moveAt 1)
      (changeAll (s.moveAt 0).changes s.bank) = some (.data (bytesRead c s.bank), s.bank) := by
    rw [changeAll_of_calm hcalm (by omega), hcalm 1 (by omega), busWriteRead_quiet]
  obtain ⟨t, free, hsteps, hop, hout, hbank, hhandle, hphase, hpending, hreturned, htrans, hmoves⟩ :=
    run_eval h hbegins hread houtcome
  rw [changeAll_of_calm hcalm (by omega), changeAll_of_calm hcalm (by omega)] at hbank
  exact ⟨t, hsteps, hop, ⟨free, hout⟩, hbank, hhandle, hphase, hpending, hreturned, htrans, hmoves⟩

/-- The last three steps of a calm sequence that writes back, from its evaluation: it writes the first registers of the
image on `img_out`. -/
theorem WritesBack.returns_of_evaluated {c : BusCall} {n : Nat} {enc : Image → Image} (hw : WritesBack c n enc)
    {s u : State} {rest : List Request} (h : Evaluated s c rest u) (hcalm : Calm 3 u) {img : Image}
    (himg : readImgOut u.out = .ok img) :
    ∃ t, Returns u 3 rest (.ok .unit) t ∧ t.bank = placeAt 0 ((regsOf img).take n) u.bank ∧
      t.transactions = u.transactions ++ [.write devAddr (writeFrame 0x00#8 ((regsOf img).take n))] := by
  have hlen : ((regsOf img).take n).length = 7 ∨ ((regsOf img).take n).length = 8 := by
    have := hw.length
    rw [List.length_take, regsOf_length]; omega
  have hwrite : busWrite devAddr (writeFrame 0x00#8 ((regsOf img).take n)) (u.moveAt 1) u.passTime.bank =
      some (.done, placeAt 0 ((regsOf img).take n) u.bank) := by
    rw [hcalm 1 (by omega), passTime_bank_of_calm hcalm (by omega), busWrite_quiet hlen]
  have hcollect := run_collect h.op h.phase (hw.collects u.passTime img himg)
  obtain ⟨t, hsteps, hop, hbank, hhandle, hphase, hpending, hreturned, htrans, hmoves⟩ :=
    run_write (s := u.passTime.withPhase (.writing ((regsOf img).take n))) h.op rfl (by simpa using hwrite)
  refine ⟨t, ⟨fun k => (hcollect (k + 2)).trans (hsteps k), hop, hhandle.trans h.handle, hphase,
    hpending.trans h.pending, hreturned, fun k => by simp [hmoves]⟩, ?_, htrans⟩
  rw [hbank, State.withPhase_moveAt, State.passTime_moveAt, changeAll_of_calm hcalm (by omega)]

/-- A whole calm sequence that writes back encodes into the registers it reads, and writes the first registers of the
result (R213, R215). -/
theorem WritesBack.returns {c : BusCall} {n : Nat} {enc : Image → Image} (hw : WritesBack c n enc) {s : State}
    {rest : List Request} (h : Awaits c rest s) (hcalm : Calm 7 s) :
    ∃ t free, Returns s 7 rest (.ok .unit) t ∧
      t.bank = placeAt 0 ((regsOf (enc (placeAt 0 (bytesRead c s.bank) free))).take n) s.bank ∧
      t.transactions = [.writeRead devAddr [(readSpan c).1] (readSpan c).2,
        .write devAddr (writeFrame 0x00#8 ((regsOf (enc (placeAt 0 (bytesRead c s.bank) free))).take n))] := by
  obtain ⟨u, heval⟩ := exists_evaluated h hw.begins (calm_mono hcalm (by omega))
    fun free => (hw.encodes _ free s.inp).imp fun _ => And.left
  obtain ⟨free, hout⟩ := heval.out
  obtain ⟨o, ho, himg⟩ := hw.encodes (bytesRead c s.bank) free s.inp
  obtain rfl : o = u.out := Option.some.inj (ho.symm.trans hout)
  obtain ⟨t, hret, hbank, htrans⟩ := hw.returns_of_evaluated heval (calm_after hcalm heval.moves) himg
  rw [heval.bank] at hbank
  rw [heval.transactions] at htrans
  exact ⟨t, free, heval.returns hret, hbank, htrans⟩

/-! ### NOW (R212) -/

/-- What NOW returns for what decoding made of the registers (R212, R243). -/
def nowResult : Option Timestamp → CallResult
  | some ts => .ok (.timestamp ts)
  | none => .domainDecode

/-- Decoding needs the seven bytes that NOW reads and no others. -/
theorem decodeTime_bytesRead (bank free : Image) : decodeTime (placeAt 0 (bytesRead .now bank) free) = decodeTime bank :=
  calc decodeTime (placeAt 0 (bytesRead .now bank) free)
      = decodeTime { bank with control := free.control } := congrArg decodeTime (placeAt_seven bank free)
    _ = decodeTime bank := rfl

/-- NOW returns what DECT made of the image presented. -/
theorem collect_now {s : State} {inp : Inputs} (hout : outcomeOf .dect inp = some s.out) :
    collect .now s = .next (s.returnCall (nowResult (decodeTime inp.img))) := by
  cases hdecode : decodeTime inp.img with
  | some ts =>
    have hdect : s.out = .dect ts := by simpa [outcomeOf, hdecode] using hout.symm
    simp [collect, usePort, hdect, readTsOut, nowResult]
  | none =>
    have herror : s.out = .error .decode := by simpa [outcomeOf, hdecode] using hout.symm
    simp [collect, herror, nowResult]

/-- A whole calm NOW returns what decoding makes of the bank, and leaves the bank as it was. -/
theorem returns_now {s : State} {rest : List Request} (h : Awaits .now rest s) (hcalm : Calm 5 s) :
    ∃ t, Returns s 5 rest (nowResult (decodeTime s.bank)) t ∧ t.bank = s.bank ∧
      t.transactions = [.writeRead devAddr [(readSpan .now).1] (readSpan .now).2] := by
  obtain ⟨u, heval⟩ := exists_evaluated h (fun _ => rfl) (calm_mono hcalm (by omega)) fun _ => ⟨_, rfl⟩
  have hcalm1 : Calm 1 u := calm_after hcalm heval.moves
  obtain ⟨free, hout⟩ := heval.out
  have hcollect : collect .now u.passTime = .next (u.passTime.returnCall (nowResult (decodeTime s.bank))) := by
    rw [← decodeTime_bytesRead s.bank free]
    exact collect_now (inp := inputsOf .now (bytesRead .now s.bank) free s.inp) hout
  have hret : Returns u 1 rest (nowResult (decodeTime s.bank)) (u.passTime.returnCall (nowResult (decodeTime s.bank))) :=
    { steps := run_collect heval.op heval.phase hcollect
      op := heval.op
      handle := heval.handle
      phase := rfl
      pending := heval.pending
      returned := rfl
      moves := fun k => State.passTime_moveAt u k }
  exact ⟨_, heval.returns hret, (passTime_bank_of_calm hcalm1 (by omega)).trans heval.bank, heval.transactions⟩

/-! ### NOW after SET_DATETIME (R173) -/

/-- The registers that SET_DATETIME writes decode to the timestamp that was set, whatever it encoded into. -/
theorem decodeTime_placeAt_encodeTime {ts : Timestamp} (hvalid : tsValid ts = true) (hmin : 2000 ≤ ts.year)
    (hmax : ts.year ≤ 2099) (b bank : Image) :
    decodeTime (placeAt 0 ((regsOf (encodeTime ts b)).take 7) bank) = some ts := by
  calc decodeTime (placeAt 0 ((regsOf (encodeTime ts b)).take 7) bank)
      = decodeTime (encodeTime ts b) := decodeTime_bytesRead (encodeTime ts b) bank
    _ = some ts := decodeTime_of_readsAs (readsAs_encodeTime hvalid hmin hmax b) hvalid

/-- Settles O48: NOW decodes the registers that SET_DATETIME left in the bank. -/
theorem nowAfterSetDatetimeReturnsTheTimeSet : Obligations.NowAfterSetDatetimeReturnsTheTimeSet := by
  intro s ts rest hawaits hcalm hvalid hmin hmax
  have hset := writesBack_setDatetime hvalid ((yearInRange_iff _).2 ⟨hmin, hmax⟩)
  obtain ⟨u, free, hretset, hbank, -⟩ := hset.returns hawaits (calm_mono hcalm (by omega))
  obtain ⟨t, hretnow, -⟩ := returns_now hretset.awaits (calm_after hcalm hretset.moves)
  have hdecode : decodeTime u.bank = some ts := hbank ▸ decodeTime_placeAt_encodeTime hvalid hmin hmax _ s.bank
  refine ⟨t, (hretset.steps 5).trans (hretnow.steps 0), hretnow.phase, hretnow.pending, ?_⟩
  rw [hretnow.returned, hretset.returned, hdecode, nowResult]

end Sys2Proof.Machine
end

section
/-! SUPPORT. The clock configuration (family 43_clock_config): what a bit reads after `putBit`, the two directions of
the configuration bits, and what CFGE, CFGD and OSCS drive. -/

namespace Sys2Proof.Machine

/-! ### Bits after `putBit` (R190) -/

/-- The bit put reads back, and every other bit is the old byte's. -/
theorem getLsbD_putBit {i : Nat} (hi : i < 8) (b : Byte) (v : Bool) (k : Nat) :
    (putBit b i v).getLsbD k = if k = i then v else b.getLsbD k := by
  simp only [putBit, BitVec.getLsbD_or, BitVec.getLsbD_and, BitVec.getLsbD_not, BitVec.getLsbD_shiftLeft,
    BitVec.getLsbD_setWidth, BitVec.getLsbD_one, BitVec.getLsbD_ofBool]
  rcases lt_trichotomy k i with hlt | rfl | hgt
  · simp [hlt, hlt.ne, hlt.trans hi]
  · simp [hi]
  · have hsub : k - i ≠ 0 := by omega
    simpa [hgt.ne', hgt.not_gt, hsub] using fun h : b.getLsbD k = true => BitVec.lt_of_getLsbD h

/-- Putting back the bit a byte has changes nothing. -/
theorem putBit_getLsbD {i : Nat} (hi : i < 8) (b : Byte) : putBit b i (b.getLsbD i) = b := by
  refine BitVec.eq_of_getLsbD_eq fun k _ => ?_
  rw [getLsbD_putBit hi]
  exact ite_eq_right_iff.2 fun hk => hk ▸ rfl

/-! ### The clock-source bit (R192, R197) -/

theorem clkSrcBit_eq_true_iff {c : ClockSource} : clkSrcBit c = true ↔ c = .externalClock := by
  cases c <;> simp [clkSrcBit]

@[simp] theorem clkSrcOf_clkSrcBit (c : ClockSource) : clkSrcOf (clkSrcBit c) = c := by
  cases c <;> rfl

@[simp] theorem clkSrcBit_clkSrcOf (v : Bool) : clkSrcBit (clkSrcOf v) = v := by
  cases v <;> rfl

/-! ### The two directions of the configuration bits (R198) -/

/-- An image encoded with a configuration holds that configuration. -/
theorem decodeConfig_encodeConfig (c : ClockConfig) (b : Image) : decodeConfig (encodeConfig c b) = c := by
  have henabled : bit (putBit b.seconds oscEnBit c.enabled) oscEnBit = c.enabled := by
    rw [bit, getLsbD_putBit (by decide), if_pos rfl]
  have hsource : bit (putBit b.control extOscBit (clkSrcBit c.clkSrc)) extOscBit = clkSrcBit c.clkSrc := by
    rw [bit, getLsbD_putBit (by decide), if_pos rfl]
  simp only [decodeConfig, encodeConfig, henabled, hsource, clkSrcOf_clkSrcBit]

/-- Encoding the configuration an image holds changes nothing. -/
theorem encodeConfig_decodeConfig (b : Image) : encodeConfig (decodeConfig b) b = b := by
  have hseconds : putBit b.seconds oscEnBit (bit b.seconds oscEnBit) = b.seconds := putBit_getLsbD (by decide) _
  have hcontrol : putBit b.control extOscBit (bit b.control extOscBit) = b.control := putBit_getLsbD (by decide) _
  simp only [encodeConfig, decodeConfig, clkSrcBit_clkSrcOf, hseconds, hcontrol]

/-! ### What the operations drive -/

/-- CFGE drives the image with the configuration merged in (R190). -/
theorem exec_cfge (s : State) : exec .cfge s = .next (s.drive (.cfge (encodeConfig s.inp.cfg s.inp.img))) :=
  exec_of_outcomeOf_some rfl

/-- CFGD drives the configuration the image holds (R195). -/
theorem exec_cfgd (s : State) : exec .cfgd s = .next (s.drive (.cfgd (decodeConfig s.inp.img))) :=
  exec_of_outcomeOf_some rfl

/-- OSCS drives the oscillator-running bit of the image (R199). -/
theorem exec_oscs (s : State) : exec .oscs s = .next (s.drive (.oscs (oscRunning s.inp.img))) :=
  exec_of_outcomeOf_some rfl

/-- The image on `img_out` after CFGE is the image presented with the configuration merged in. -/
theorem exec_cfge_img {s t : State} {img : Image} (hexec : exec .cfge s = .next t) (himg : readImgOut t.out = .ok img) :
    img = encodeConfig s.inp.cfg s.inp.img := by
  rw [exec_cfge] at hexec
  cases hexec
  cases himg
  rfl

/-- The configuration on `cfg_out` after CFGD is the one the image presented holds. -/
theorem exec_cfgd_cfg {s t : State} {cfg : ClockConfig} (hexec : exec .cfgd s = .next t)
    (hcfg : readCfgOut t.out = .ok cfg) : cfg = decodeConfig s.inp.img := by
  rw [exec_cfgd] at hexec
  cases hexec
  cases hcfg
  rfl

/-- Settles O23: CFGE puts one bit in each of two registers, and `getLsbD_putBit` says what every bit reads then. -/
theorem cfgeLeavesEveryOtherBit : Obligations.CfgeLeavesEveryOtherBit := by
  intro s t img hexec himg
  obtain rfl := exec_cfge_img hexec himg
  have hseconds (k : Nat) : (encodeConfig s.inp.cfg s.inp.img).seconds.getLsbD k =
      if k = 7 then s.inp.cfg.enabled else s.inp.img.seconds.getLsbD k := getLsbD_putBit (by decide) _ _ k
  have hcontrol (k : Nat) : (encodeConfig s.inp.cfg s.inp.img).control.getLsbD k =
      if k = 3 then clkSrcBit s.inp.cfg.clkSrc else s.inp.img.control.getLsbD k := getLsbD_putBit (by decide) _ _ k
  refine ⟨fun k hk => (hseconds k).trans (if_neg hk), fun k hk => (hcontrol k).trans (if_neg hk),
    rfl, rfl, rfl, rfl, rfl, rfl, fun henabled hcrystal => ⟨(hseconds 7).trans henabled, ?_⟩⟩
  rw [hcontrol, hcrystal]
  rfl

/-- Settles O25: the two directions of the configuration bits undo each other. -/
theorem clockConfigRoundTrip : Obligations.ClockConfigRoundTrip := by
  constructor
  · intro s t img u hcfge himg hcfgd
    obtain rfl := exec_cfge_img hcfge himg
    rw [exec_cfgd] at hcfgd
    cases hcfgd
    exact congrArg Except.ok (decodeConfig_encodeConfig s.inp.cfg s.inp.img)
  · intro s t cfg u hcfgd hcfg hcfge
    obtain rfl := exec_cfgd_cfg hcfgd hcfg
    rw [exec_cfgd] at hcfgd
    cases hcfgd
    rw [exec_cfge] at hcfge
    cases hcfge
    exact congrArg Except.ok (encodeConfig_decodeConfig s.inp.img)

/-- Settles O22: `putBit` at the two positions is the mask and OR of R190. -/
theorem cfgeWritesTheTwoBits : Obligations.CfgeWritesTheTwoBits := by
  intro s
  rw [exec_cfge]
  simp only [State.drive, encodeConfig, oscEnBit, extOscBit, putBit_7, putBit_3, clkSrcBit_eq_true_iff]

/-- Settles O24: the two fields that CFGD drives are the two bits of R196 and R197. -/
theorem cfgdReadsTheTwoBits : Obligations.CfgdReadsTheTwoBits := fun s => exec_cfgd s

/-- Settles O26: the bit that OSCS drives is bit 5 of register 0x03. -/
theorem oscsReadsTheRunningBit : Obligations.OscsReadsTheRunningBit := fun s => exec_oscs s

/-- Settles O27: by `oscsReadsTheRunningBit` both images give bit 5 of register 0x03, where they agree. -/
theorem oscsIsIndependentOfTheEnableBit : Obligations.OscsIsIndependentOfTheEnableBit := by
  intro s a b hrun
  have hb := oscsReadsTheRunningBit { s with inp := { s.inp with img := b } }
  exact ⟨_, oscsReadsTheRunningBit _, hrun ▸ hb⟩

end Sys2Proof.Machine
end

section
/-! SUPPORT. Safety of a running machine (family 44_host_sequences): each agent that may move in a step answers with
a next state in which the machine is still running a legal program. -/

namespace Sys2Proof.Machine

open Sys2Proof.Safety

variable {s : State}

/-! ### The read of a sequence -/

/-- A sequence's read is one of R59's. -/
theorem readAdmitted_readSpan (c : BusCall) : readAdmitted devAddr [(readSpan c).1] (readSpan c).2 = true := by
  cases c <;> rfl

/-- A sequence's read answers, ends as the environment's move has it, and leaves the bank to the peripheral (R61). -/
theorem busWriteRead_answers (c : BusCall) (m : EnvMove) (bank : Image) :
    ∃ v bank', busWriteRead devAddr [(readSpan c).1] (readSpan c).2 m bank = some (readReply m v, bank') ∧
      stable bank' = stable bank ∧ (m.changes = [] → bank' = bank) := by
  have hinside : (readSpan c).1.toNat + (readSpan c).2 ≤ 8 := by cases c <;> simp [readSpan]
  obtain ⟨v, bank', hburst⟩ := readBurst_some (readSpan c).2 (readSpan c).1.toNat m.changes bank hinside
  refine ⟨v, bank', ?_, (readBurst_stable hburst).1, fun hquiet => ?_⟩
  · rw [busWriteRead_eq, if_pos (readAdmitted_readSpan c), hburst, Option.map_some]
  · rw [hquiet, readBurst_quiet bank _ _ hinside] at hburst
    cases hburst
    rfl

/-! ### Beginning a pseudo-instruction (R36, R210) -/

theorem beginRequest_new (h : s.handle = .caller) :
    beginRequest (.call .new) s = .next ((s.withHandle .session).returnCall (.ok .session)) := by
  simp only [beginRequest, beginCall, h]

theorem beginRequest_release (h : s.handle = .session) :
    beginRequest (.call .release) s = .next ((s.withHandle .caller).returnCall (.ok .busHandle)) := by
  simp only [beginRequest, beginCall, h]

theorem beginRequest_onBus (h : s.handle = .session) (c : BusCall) :
    beginRequest (.call (.onBus c)) s = beginBusCall c s := by
  simp only [beginRequest, beginCall, h]

/-! ### Legal programs, by their first request (R36, R111, R287) -/

section

variable (o : Owner) (rest : List Request)

theorem legal_operation_iff (w : OpWord) (inp : Inputs) :
    legal o (.operation w inp :: rest) = true ↔ inp.wellFormedFor (decodeOp w) = true ∧ legal o rest = true := by
  cases o <;> simp [legal, Request.wellFormed]

theorem legal_new_iff : legal o (.call .new :: rest) = true ↔ o = .caller ∧ legal .session rest = true := by
  cases o <;> simp [legal]

theorem legal_release_iff : legal o (.call .release :: rest) = true ↔ o = .session ∧ legal .caller rest = true := by
  cases o <;> simp [legal]

theorem legal_onBus_iff (c : BusCall) :
    legal o (.call (.onBus c) :: rest) = true ↔ o = .session ∧ c.wellFormed = true ∧ legal o rest = true := by
  cases o <;> simp [legal]

end

/-! ### Running states -/

/-- The answer is a next state in which the machine is running a legal program. -/
def GoesOn (a : Answer) : Prop := ∃ t, a = .next t ∧ Running t

theorem goesOn_next {t : State} (h : Running t) : GoesOn (.next t) := ⟨t, rfl, h⟩

/-- The peripheral's own changes touch nothing that running speaks of. -/
theorem running_passTime (h : Running s) : Running s.passTime :=
  ⟨h.presented, h.phase, h.sessionOwnsHandle, h.program⟩

/-- With no operation presented, a running machine is one whose phase fits and whose program is legal. -/
theorem running_of_op_eq_none (hop : s.op = none) (hphase : phaseFits s) (howns : s.phase ≠ .idle → s.handle = .session)
    (hlegal : legal s.handle s.pending = true) : Running s :=
  { presented := fun w hw => by rw [hop] at hw; cases hw
    phase := hphase
    sessionOwnsHandle := howns
    program := hlegal }

/-- A sequence may return in any phase, if the rest of the program is legal. -/
theorem running_returnCall (hop : s.op = none) (hlegal : legal s.handle s.pending = true) (r : CallResult) :
    Running (s.returnCall r) :=
  running_of_op_eq_none hop trivial (fun hphase => absurd rfl hphase) hlegal

/-- A sequence that owns the handle goes on to a phase that fits. -/
theorem running_withPhase {p : Phase} (hop : s.op = none) (hphase : phaseFits (s.withPhase p))
    (hhandle : s.handle = .session) (hlegal : legal s.handle s.pending = true) : Running (s.withPhase p) :=
  running_of_op_eq_none hop hphase (fun _ => hhandle) hlegal

/-! ### The block evaluates -/

/-- The operation of a sequence drives the outputs the sequence waits for (R89). -/
theorem outputsFor_of_outcomeOf {c : BusCall} {inp : Inputs} {o : Outputs}
    (h : outcomeOf (operationOf c) inp = some o) : outputsFor c o := by
  cases c with
  | oscRunning => exact ⟨_, (Option.some.inj h).symm⟩
  | configureClock cfg => exact ⟨_, (Option.some.inj h).symm⟩
  | now =>
    simp only [operationOf, outcomeOf, Option.some.injEq] at h
    split at h
    · exact .inl ⟨_, h.symm⟩
    · exact .inr h.symm
  | setDatetime ts =>
    simp only [operationOf, outcomeOf, Option.ite_none_right_eq_some, Option.some.injEq] at h
    obtain ⟨-, h⟩ := h
    split at h
    · exact .inl ⟨_, h.symm⟩
    · exact .inr h.symm

/-- With an operation presented, the only sequence that may be under way is the one that presented it. -/
theorem phaseFits_of_op_eq_some {w : OpWord} (h : phaseFits s) (hop : s.op = some w) :
    s.phase = .idle ∨ ∃ c, s.phase = .evaluating c ∧ w = encode (operationOf c) := by
  cases hphase : s.phase with
  | idle => exact .inl rfl
  | evaluating c => exact .inr ⟨c, rfl, by simpa [phaseFits, hphase, hop] using h⟩
  | _ => simp [phaseFits, hphase, hop] at h

/-- The evaluation of the operation presented goes on. -/
theorem goesOn_exec {w : OpWord} (h : Running s) (hop : s.op = some w) :
    GoesOn (exec (decodeOp w) s.passTime.takeOp) := by
  obtain ⟨o, ho⟩ := outcomeOf_wellFormed (h.presented w hop)
  rw [exec_of_outcomeOf_some (s := s.passTime.takeOp) ho]
  refine goesOn_next (running_of_op_eq_none rfl ?_ h.sessionOwnsHandle h.program)
  obtain hidle | ⟨c, hevaluating, rfl⟩ := phaseFits_of_op_eq_some h.phase hop
  · simp [phaseFits, hidle]
  · rw [decodeOp_encode] at ho
    simpa [phaseFits, hevaluating] using outputsFor_of_outcomeOf ho

/-! ### The host moves -/

/-- A well-formed sequence begins with its read or, if the year is out of range, may return at once (R213, R214). -/
theorem beginBusCall_wellFormed {c : BusCall} (hwf : c.wellFormed = true) (s : State) :
    beginBusCall c s = .next (s.withPhase (.reading c)) ∨ beginBusCall c s = .next (s.returnCall .domainRange) := by
  cases c with
  | oscRunning => exact .inl rfl
  | now => exact .inl rfl
  | configureClock cfg => exact .inl rfl
  | setDatetime ts =>
    have hvalid : tsValid ts = true := hwf
    simp only [beginBusCall, hvalid, if_true]
    split
    · exact .inr rfl
    · exact .inl rfl

/-- Beginning the next request of a legal program goes on. -/
theorem goesOn_beginRequest {r : Request} (hop : s.op = none) (hidle : s.phase = .idle)
    (hlegal : legal s.handle (r :: s.pending) = true) : GoesOn (beginRequest r s) := by
  cases r with
  | operation w inp =>
    obtain ⟨hwf, hrest⟩ := (legal_operation_iff _ _ w inp).1 hlegal
    exact goesOn_next
      { presented := fun _ hw => Option.some.inj hw ▸ hwf
        phase := by simp [phaseFits, hidle]
        sessionOwnsHandle := fun hphase => absurd hidle hphase
        program := hrest }
  | call call =>
    cases call with
    | new =>
      obtain ⟨hhandle, hrest⟩ := (legal_new_iff _ _).1 hlegal
      rw [beginRequest_new hhandle]
      exact goesOn_next (running_returnCall (s := s.withHandle .session) hop hrest _)
    | release =>
      obtain ⟨hhandle, hrest⟩ := (legal_release_iff _ _).1 hlegal
      rw [beginRequest_release hhandle]
      exact goesOn_next (running_returnCall (s := s.withHandle .caller) hop hrest _)
    | onBus c =>
      obtain ⟨hhandle, hwf, hrest⟩ := (legal_onBus_iff _ _ c).1 hlegal
      rw [beginRequest_onBus hhandle]
      obtain hread | hreturn := beginBusCall_wellFormed hwf s
      · rw [hread]
        exact goesOn_next (running_withPhase hop ⟨hop, hwf⟩ hhandle hrest)
      · rw [hreturn]
        exact goesOn_next (running_returnCall hop hrest _)

/-- The inputs a well-formed sequence presents meet the precondition of its operation (R111, R213). -/
theorem wellFormedFor_inputsOf {c : BusCall} (hwf : c.wellFormed = true) (v : List Byte) (free : Image) (inp : Inputs) :
    (inputsOf c v free inp).wellFormedFor (operationOf c) = true := by
  cases c with
  | setDatetime ts => exact hwf
  | oscRunning => rfl
  | now => rfl
  | configureClock cfg => rfl

/-- Presenting the operation of a sequence on the bytes read goes on. -/
theorem running_presentFor {c : BusCall} (hwf : c.wellFormed = true) (v : List Byte) (hhandle : s.handle = .session)
    (hlegal : legal s.handle s.pending = true) : Running (presentFor c v s) :=
  { presented := fun w hw => by
      obtain rfl := Option.some.inj hw
      rw [decodeOp_encode]
      exact wellFormedFor_inputsOf hwf v _ s.inp
    phase := .inl rfl
    sessionOwnsHandle := fun _ => hhandle
    program := hlegal }

/-- On the outputs a sequence waits for, the host reads no undriven port (R25). -/
theorem collect_of_outputsFor {c : BusCall} (h : outputsFor c s.out) : ∃ t, collect c s = .next t := by
  cases c with
  | oscRunning =>
    obtain ⟨b, hout⟩ := h
    exact ⟨_, by rw [collect, hout]; rfl⟩
  | configureClock cfg =>
    obtain ⟨img, hout⟩ := h
    exact ⟨_, by rw [collect, hout]; rfl⟩
  | now =>
    obtain ⟨ts, hout⟩ | hout := h
    · exact ⟨s.returnCall (.ok (.timestamp ts)), by simp [collect, hout, readTsOut, usePort]⟩
    · exact ⟨_, if_pos hout⟩
  | setDatetime ts =>
    obtain ⟨img, hout⟩ | hout := h
    · exact ⟨s.withPhase (.writing ((regsOf img).take 7)), by simp [collect, hout, readImgOut, usePort]⟩
    · exact ⟨_, if_pos hout⟩

/-- Taking the outputs a sequence waits for goes on. -/
theorem goesOn_collect {c : BusCall} (hop : s.op = none) (hout : outputsFor c s.out) (hhandle : s.handle = .session)
    (hlegal : legal s.handle s.pending = true) : GoesOn (collect c s) := by
  obtain ⟨t, hcollect⟩ := collect_of_outputsFor hout
  rw [hcollect]
  obtain ⟨r, rfl, -⟩ | ⟨v, rfl, hlen⟩ := collect_next hcollect
  · exact goesOn_next (running_returnCall hop hlegal r)
  · exact goesOn_next (running_withPhase hop ⟨hop, hlen⟩ hhandle hlegal)

/-- The read of a sequence goes on, however it ends. -/
theorem goesOn_memRead {c : BusCall} (hop : s.op = none) (hwf : c.wellFormed = true) (hhandle : s.handle = .session)
    (hlegal : legal s.handle s.pending = true) : GoesOn (memRead (readSpan c).1 (readSpan c).2 c s) := by
  obtain ⟨v, bank, hread, -⟩ := busWriteRead_answers c s.nextMove s.bank
  simp only [memRead, hread]
  exact goesOn_next (running_withPhase hop ⟨hop, hwf⟩ hhandle hlegal)

/-- A write of R59 goes on, however it ends. -/
theorem goesOn_memWrite {v : List Byte} (hop : s.op = none) (hlen : v.length = 7 ∨ v.length = 8)
    (hhandle : s.handle = .session) (hlegal : legal s.handle s.pending = true) : GoesOn (memWrite 0x00#8 v s) := by
  obtain ⟨bank, hwrite, -⟩ := busWrite_answers hlen s.nextMove s.bank
  simp only [memWrite, writeFrame, hwrite]
  exact goesOn_next (running_withPhase hop hop hhandle hlegal)

/-- A move of the host goes on, in every phase. -/
theorem goesOn_hostStep (h : Running s) (hop : s.op = none) : GoesOn (hostStep s) := by
  have howns := h.sessionOwnsHandle
  have hfits := h.phase
  unfold phaseFits at hfits
  unfold hostStep
  cases hphase : s.phase with
  | idle =>
    cases hpending : s.pending with
    | nil => exact goesOn_next (running_passTime h)
    | cons r rest =>
      have hlegal := h.program
      rw [hpending] at hlegal
      exact goesOn_beginRequest (s := s.passTime.beginRequest rest) hop hphase hlegal
  | reading c =>
    simp only [hphase] at hfits howns
    exact goesOn_memRead hop hfits.2 (howns (by simp)) h.program
  | readDone c r =>
    simp only [hphase] at hfits howns
    cases r with
    | data v => exact goesOn_next (running_presentFor (s := s.passTime) hfits.2 v (howns (by simp)) h.program)
    | failed e => exact goesOn_next (running_returnCall (s := s.passTime) hop h.program _)
  | evaluating c =>
    simp only [hphase, hop, reduceCtorEq, false_or, true_and] at hfits howns
    exact goesOn_collect (s := s.passTime) hop hfits (howns (by simp)) h.program
  | writing v =>
    simp only [hphase] at hfits howns
    exact goesOn_memWrite hop hfits.2 (howns (by simp)) h.program
  | writeDone r =>
    cases r <;> exact goesOn_next (running_returnCall (s := s.passTime) hop h.program _)

/-- Every step of a running machine goes on. -/
theorem goesOn_step (h : Running s) : GoesOn (step s) := by
  obtain ⟨w, hop, heval⟩ | ⟨hop, hhost⟩ := step_cases s
  · exact heval ▸ goesOn_exec h hop
  · exact hhost ▸ goesOn_hostStep h hop

/-- Settles O60, by induction on the number of steps: each one goes on. -/
theorem runningMachinesAreSafe : Obligations.RunningMachinesAreSafe := by
  intro s hrunning k
  induction k generalizing s with
  | zero => exact ⟨s, rfl⟩
  | succ k ih =>
    obtain ⟨u, hstep, hu⟩ := goesOn_step hrunning
    rw [run_next hstep k]
    exact ih u hu

end Sys2Proof.Machine
end

section
/-! SUPPORT. What the host sequences return (family 44_host_sequences): while the peripheral changes nothing and the
transactions complete, and when a transaction fails. -/

namespace Sys2Proof.Machine

open Sys2Proof.Safety

variable {s : State} {rest : List Request}

/-! ### NEW and RELEASE (R210) -/

/-- The next request asked for begins in one step. -/
theorem step_of_idle {r : Request} (hop : s.op = none) (hidle : s.phase = .idle) (hpending : s.pending = r :: rest) :
    step s = beginRequest r (s.passTime.beginRequest rest) := by
  simp only [step, hop, hostStep, hidle, hpending]

/-- Settles O42: each of the two moves the handle and returns, in the step that begins it. -/
theorem newAndReleaseMoveTheHandle : Obligations.NewAndReleaseMoveTheHandle := by
  constructor
  · intro s rest hop hidle hhandle hpending
    rw [step_of_idle hop hidle hpending, beginRequest_new (s := s.passTime.beginRequest rest) hhandle]
    simp [State.returnCall, State.withHandle, State.beginRequest, hidle]
  · intro s rest hop hidle hhandle hpending
    rw [step_of_idle hop hidle hpending, beginRequest_release (s := s.passTime.beginRequest rest) hhandle]
    simp [State.returnCall, State.withHandle, State.beginRequest, hidle]

/-! ### Sequences that return from their evaluation (R211, R212, R214) -/

/-- A sequence on the bus that has been asked for begins in one step. -/
theorem step_of_awaits {c : BusCall} (h : Awaits c rest s) :
    step s = beginBusCall c (s.passTime.beginRequest rest) := by
  obtain ⟨hop, hidle, hhandle, hpending⟩ := h
  rw [step_of_idle hop hidle hpending]
  exact beginRequest_onBus (s := s.passTime.beginRequest rest) hhandle c

/-- A calm sequence that returns on its outputs has performed its read and left the bank as it was. -/
theorem Evaluated.returns_of_collect {u : State} {c : BusCall} {r : CallResult} (h : Evaluated s c rest u)
    (hcalm : Calm 5 s) (hcollect : collect c u.passTime = .next (u.passTime.returnCall r)) :
    ∃ t, Returns s 5 rest r t ∧ t.bank = s.bank ∧
      t.transactions = [.writeRead devAddr [(readSpan c).1] (readSpan c).2] := by
  have hcalm1 : Calm 1 u := calm_after hcalm h.moves
  have hret : Returns u 1 rest r (u.passTime.returnCall r) :=
    { steps := run_collect h.op h.phase hcollect
      op := h.op
      handle := h.handle
      phase := rfl
      pending := h.pending
      returned := rfl
      moves := fun k => State.passTime_moveAt u k }
  exact ⟨_, h.returns hret, (passTime_bank_of_calm hcalm1 (by omega)).trans h.bank, h.transactions⟩

/-- The one byte that OSC_RUNNING reads is the register whose bit OSCS drives. -/
theorem oscRunning_bytesRead (bank free : Image) :
    oscRunning (placeAt 0x03 (bytesRead .oscRunning bank) free) = bank.weekday.getLsbD 5 := rfl

/-- Settles O43: OSCS drives the bit of the byte read, and OSC_RUNNING returns it. -/
theorem oscRunningReturnsTheStatusBit : Obligations.OscRunningReturnsTheStatusBit := by
  intro s rest hawaits hcalm
  obtain ⟨u, heval⟩ := exists_evaluated hawaits (fun _ => rfl) (calm_mono hcalm (by omega)) fun _ => ⟨_, rfl⟩
  obtain ⟨free, hout⟩ := heval.out
  have hcollect : collect .oscRunning u.passTime =
      .next (u.passTime.returnCall (.ok (.running (s.bank.weekday.getLsbD 5)))) := by
    have hoscs : u.out = .oscs (s.bank.weekday.getLsbD 5) := by
      rw [← oscRunning_bytesRead s.bank free]
      exact (Option.some.inj hout).symm
    rw [collect, State.passTime_out, hoscs]
    rfl
  obtain ⟨t, hret, hbank, htrans⟩ := heval.returns_of_collect hcalm hcollect
  exact ⟨t, hret.steps 0, hret.phase, hret.pending, hbank, hret.returned, htrans⟩

/-- What NOW returns for what DECT drives. -/
theorem nowResult_of_outcomeOf {inp : Inputs} {o : Outputs} (h : outcomeOf .dect inp = some o) :
    (∀ ts, readTsOut o = .ok ts → nowResult (decodeTime inp.img) = .ok (.timestamp ts)) ∧
    (o = .error .decode → nowResult (decodeTime inp.img) = .domainDecode) := by
  cases hdecode : decodeTime inp.img with
  | some ts =>
    obtain rfl : .dect ts = o := by simpa [outcomeOf, hdecode] using h
    exact ⟨fun ts' hts => by cases hts; rfl, nofun⟩
  | none =>
    obtain rfl : .error .decode = o := by simpa [outcomeOf, hdecode] using h
    exact ⟨nofun, fun _ => rfl⟩

/-- Settles O44: by `returns_now`, NOW returns what decoding makes of the bank, as DECT does. -/
theorem nowReturnsTheDecodedTime : Obligations.NowReturnsTheDecodedTime := by
  intro s rest u hawaits hcalm hdect
  obtain ⟨o, ho, rfl⟩ := exec_next hdect
  obtain ⟨hok, herror⟩ := nowResult_of_outcomeOf ho
  obtain ⟨t, hret, hbank, htrans⟩ := returns_now hawaits hcalm
  refine ⟨t, hret.steps 0, hret.phase, hret.pending, hbank, htrans, fun ts hts => ?_, fun hdecode => ?_⟩
  · rw [← hok ts hts]
    exact hret.returned
  · rw [← herror hdecode]
    exact hret.returned

/-- A year outside 2000..2099 is refused by the range check. -/
theorem yearInRange_eq_false {y : Int} (hyear : y < 2000 ∨ 2099 < y) : yearInRange y = false := by
  rw [Bool.eq_false_iff, ne_eq, yearInRange_iff]
  omega

/-- Where the check stands after the read, a calm SET_DATETIME of a year out of range returns Domain(Range) from its
evaluation (R213). -/
theorem returns_domainRange {ts : Timestamp} (hawaits : Awaits (.setDatetime ts) rest s) (hcalm : Calm 5 s)
    (hvalid : tsValid ts = true) (hyear : yearInRange ts.year = false) (hcheck : Config.rangeCheckBeforeRead = false) :
    ∃ t, Returns s 5 rest .domainRange t ∧ t.bank = s.bank ∧
      t.transactions = [.writeRead devAddr [(readSpan (.setDatetime ts)).1] (readSpan (.setDatetime ts)).2] := by
  have hbegins (u : State) : beginBusCall (.setDatetime ts) u = .next (u.withPhase (.reading (.setDatetime ts))) := by
    simp [beginBusCall, hvalid, hcheck]
  have houtcome (v : List Byte) (free : Image) (inp : Inputs) :
      outcomeOf .enct (inputsOf (.setDatetime ts) v free inp) = some (.error .range) := by
    simp [inputsOf, outcomeOf, hvalid, hyear]
  obtain ⟨u, heval⟩ := exists_evaluated hawaits hbegins (calm_mono hcalm (by omega)) fun free =>
    ⟨_, houtcome _ free s.inp⟩
  obtain ⟨free, hout⟩ := heval.out
  have hrange : u.out = .error .range := Option.some.inj (hout.symm.trans (houtcome _ free s.inp))
  exact heval.returns_of_collect hcalm (if_pos hrange)

/-- Settles O46: with the check first the sequence returns in the step that begins it, else from its evaluation. -/
theorem setDatetimeRangeErrorWritesNothing : Obligations.SetDatetimeRangeErrorWritesNothing := by
  intro s ts rest hawaits hcalm hvalid hyear
  have hout := yearInRange_eq_false hyear
  cases hcheck : Config.rangeCheckBeforeRead with
  | true =>
    have hstep : step s = .next ((s.passTime.beginRequest rest).returnCall .domainRange) := by
      simp [step_of_awaits hawaits, beginBusCall, hvalid, hout, hcheck]
    exact ⟨1, _, by omega, run_next hstep 0, rfl, rfl, passTime_bank_of_calm hcalm (by omega), rfl, rfl⟩
  | false =>
    obtain ⟨t, hret, hbank, htrans⟩ := returns_domainRange hawaits hcalm hvalid hout hcheck
    exact ⟨5, t, le_rfl, hret.steps 0, hret.phase, hret.pending, hbank, hret.returned, htrans⟩

/-! ### Sequences that write back (R213, R215, R221) -/

/-- SET_DATETIME merges the time into the seven registers read; register 0x07 passes through. -/
theorem encodeTime_bytesRead (ts : Timestamp) (bank free : Image) :
    encodeTime ts (placeAt 0 (bytesRead (.setDatetime ts) bank) free) =
      { encodeTime ts bank with control := free.control } :=
  congrArg (encodeTime ts) (placeAt_seven bank free)

/-- Settles O45: the first seven registers of the encoded image are those of the image encoded into the bank. -/
theorem setDatetimeWritesTheEncodedImage : Obligations.SetDatetimeWritesTheEncodedImage := by
  intro s ts rest u img hawaits hcalm hexec himg
  obtain ⟨hvalid, hmin, hmax, rfl⟩ := exec_enct_img hexec himg
  have hset := writesBack_setDatetime hvalid ((yearInRange_iff _).2 ⟨hmin, hmax⟩)
  obtain ⟨t, free, hret, hbank, htrans⟩ := hset.returns hawaits hcalm
  rw [encodeTime_bytesRead] at hbank htrans
  rw [placeAt_seven] at hbank
  exact ⟨t, hret.steps 0, hret.phase, hret.pending, hbank, hret.returned, htrans⟩

/-- Settles O47: CONFIGURE_CLOCK reads the whole span, so it encodes into the bank and writes all of the result. -/
theorem configureClockWritesBackTheSpan : Obligations.ConfigureClockWritesBackTheSpan := by
  intro s cfg rest u img hawaits hcalm hexec himg
  obtain rfl := exec_cfge_img hexec himg
  obtain ⟨t, free, hret, hbank, htrans⟩ := (writesBack_configureClock cfg).returns hawaits hcalm
  have hspan : placeAt 0 (bytesRead (.configureClock cfg) s.bank) free = s.bank := placeAt_eight s.bank free
  rw [hspan] at hbank htrans
  exact ⟨t, hret.steps 0, hret.phase, hret.pending, hbank.trans (placeAt_eight _ _), hret.returned, htrans⟩

/-! ### Transport errors (R216) -/

theorem readReply_of_failed {m : EnvMove} {e : TransportError} (h : m.failure = some e) (v : List Byte) :
    readReply m v = .failed e := by
  simp only [readReply, h]

/-- A sequence whose read has failed returns the error in one step. -/
theorem step_of_read_failed {c : BusCall} {e : TransportError} (hop : s.op = none)
    (hphase : s.phase = .readDone c (.failed e)) : step s = .next (s.passTime.returnCall (.transport e)) := by
  simp only [step, hop, hostStep, hphase]

/-- Settles O52: the sequence has come to its read in two steps, and returns its error in the third. -/
theorem readErrorEndsTheSequence : Obligations.ReadErrorEndsTheSequence := by
  intro s c rest e hawaits hfailed hwf hyear
  obtain ⟨v, bank, hread, hstable, hquiet⟩ := busWriteRead_answers c (s.moveAt 1) (changeAll (s.moveAt 0).changes s.bank)
  rw [readReply_of_failed hfailed] at hread
  obtain ⟨u, hsteps, hop, -, hbank, -, hphase, hpending, hreturned, htrans, hmoves⟩ :=
    run_read hawaits (fun u => beginBusCall_reading u hwf hyear) hread
  have hstep := step_of_read_failed hop hphase
  refine ⟨_, (hsteps 1).trans (run_next hstep 0), rfl, hpending, ?_, fun hnone => ?_, ?_, ?_⟩
  · calc stable u.passTime.bank
        = stable bank := by rw [stable_passTime, hbank]
      _ = stable s.bank := by rw [hstable, stable_changeAll]
  · have hlast : u.nextMove.changes = [] := by rw [State.nextMove, hmoves]; exact hnone 2 (by omega)
    calc u.passTime.bank
        = bank := by rw [State.passTime_bank, hlast, hbank, changeAll]
      _ = s.bank := by rw [hquiet (hnone 1 (by omega)), hnone 0 (by omega), changeAll]
  · rw [State.returnCall_returned, State.passTime_returned, hreturned]
  · rw [State.returnCall_transactions, State.passTime_transactions, htrans]
    rfl

/-- A sequence that writes back performs two transactions and returns as its write ends, whatever the peripheral does
meanwhile (R213, R215, R216). -/
theorem WritesBack.result {c : BusCall} {n : Nat} {enc : Image → Image} (hw : WritesBack c n enc)
    (h : Awaits c rest s) (hread : (s.moveAt 1).failure = none) :
    ∃ t, run 7 s = .next t ∧ t.phase = .idle ∧ t.pending = rest ∧
      t.returned = resultOf (writeReply (s.moveAt 5)) :: s.returned ∧ t.transactions.length = 2 := by
  obtain ⟨v, bank, hreply, -⟩ := busWriteRead_span hw.length hread (changeAll (s.moveAt 0).changes s.bank)
  obtain ⟨u, free, hsteps, hop, hout, -, -, hphase, hpending, hreturned, htrans, hmoves⟩ :=
    run_eval h hw.begins (by rw [hw.span]; exact hreply) fun free => (hw.encodes v free s.inp).imp fun _ => And.left
  obtain ⟨o, ho, himg⟩ := hw.encodes v free s.inp
  obtain rfl : o = u.out := Option.some.inj (ho.symm.trans hout)
  have hcollect := run_collect hop hphase (hw.collects u.passTime _ himg)
  have hlen : ((regsOf (enc (placeAt 0 v free))).take n).length = 7 ∨
      ((regsOf (enc (placeAt 0 v free))).take n).length = 8 := by
    have := hw.length
    rw [List.length_take, regsOf_length]; omega
  obtain ⟨bank', hwrite, -⟩ := busWrite_answers hlen (u.moveAt 1) u.passTime.bank
  obtain ⟨t, hlast, -, -, -, htphase, htpending, htreturned, httrans, -⟩ :=
    run_write (s := u.passTime.withPhase (.writing ((regsOf (enc (placeAt 0 v free))).take n))) hop rfl
      (by simpa [writeFrame] using hwrite)
  refine ⟨t, (hsteps 3).trans ((hcollect 2).trans (hlast 0)), htphase, htpending.trans hpending, ?_, ?_⟩
  · rw [htreturned, hmoves 1, State.withPhase_returned, State.passTime_returned, hreturned]
  · rw [httrans, State.withPhase_transactions, State.passTime_transactions, htrans]
    rfl

/-- Settles O53: both sequences write back, and a failed write is what they return. -/
theorem writeErrorEndsTheSequence : Obligations.WriteErrorEndsTheSequence := by
  intro s c rest e hawaits hread hfailed hcall
  have herror : resultOf (writeReply (s.moveAt 5)) = .transport e := by rw [writeReply_of_failed hfailed, resultOf]
  rw [← herror]
  obtain ⟨cfg, rfl⟩ | ⟨ts, rfl, hvalid, hmin, hmax⟩ := hcall
  · exact (writesBack_configureClock cfg).result hawaits hread
  · exact (writesBack_setDatetime hvalid ((yearInRange_iff _).2 ⟨hmin, hmax⟩)).result hawaits hread

end Sys2Proof.Machine
end

section
/-! SUPPORT. The number of transactions of a request (family 44_host_sequences), by what it returns. -/

namespace Sys2Proof.Machine

open Sys2Proof.Safety

variable {s t : State}

/-- The transactions a request has performed by the time it returns a result (R220). -/
def countFitsResult (n : Nat) : CallResult → Prop
  | .ok .session => n = 0
  | .ok .busHandle => n = 0
  | .ok (.running _) => n = 1
  | .ok (.timestamp _) => n = 1
  | .ok .unit => n = 2
  | .transport _ => 1 ≤ n
  | .domainDecode => n = 1
  | .domainRange => n ≤ 1

/-- The step returned no result, or one that fits the transactions performed. -/
def ResultFits (s t : State) : Prop :=
  t.returned = s.returned ∨ ∃ r, t.returned = r :: s.returned ∧ countFitsResult t.transactions.length r

/-- Beginning a request returns a result only before any transaction. -/
theorem resultFits_beginRequest {r : Request} (hnone : s.transactions = []) (h : beginRequest r s = .next t) :
    ResultFits s t := by
  obtain ⟨_, _, -, rfl⟩ | ⟨-, -, rfl⟩ | ⟨-, -, rfl⟩ | ⟨_, -, -, -, rfl | rfl⟩ := beginRequest_next h
  · exact .inl rfl
  · exact .inr ⟨_, rfl, by simp [hnone, countFitsResult]⟩
  · exact .inr ⟨_, rfl, by simp [hnone, countFitsResult]⟩
  · exact .inl rfl
  · exact .inr ⟨_, rfl, by simp [hnone, countFitsResult]⟩

/-- One transaction fits every result but those of NEW and RELEASE and of a completed write. -/
theorem countFitsResult_one {r : CallResult} (hunit : r ≠ .ok .unit) (hsession : r ≠ .ok .session)
    (hhandle : r ≠ .ok .busHandle) : countFitsResult 1 r := by
  cases r with
  | ok v =>
    cases v with
    | session => exact absurd rfl hsession
    | busHandle => exact absurd rfl hhandle
    | unit => exact absurd rfl hunit
    | running b => rfl
    | timestamp ts => rfl
  | transport e => exact le_rfl
  | domainDecode => rfl
  | domainRange => exact le_rfl

/-- Taking the block's outputs returns a result only after the read, and none that belongs to a write. -/
theorem resultFits_collect {c : BusCall} (hcount : s.transactions.length = 1) (h : collect c s = .next t) :
    ResultFits s t := by
  obtain ⟨r, rfl, hunit, hsession, hhandle⟩ | ⟨_, rfl, -⟩ := collect_next h
  · refine .inr ⟨r, rfl, ?_⟩
    rw [State.returnCall_transactions, hcount]
    exact countFitsResult_one hunit hsession hhandle
  · exact .inl rfl

/-- What a move of the host returns fits the transactions performed, in every phase. -/
theorem resultFits_hostStep (hinv : Invariant s) (h : hostStep s = .next t) : ResultFits s t := by
  have hcount := hinv.transactionCount
  obtain ⟨-, -, rfl⟩ | ⟨r, rest, -, -, hbegin⟩ | ⟨c, -, hread⟩ | ⟨c, v, -, rfl⟩ | ⟨c, e, hphase, rfl⟩ |
    ⟨c, hphase, hcollect⟩ | ⟨v, -, hwrite⟩ | ⟨hphase, rfl⟩ | ⟨e, hphase, rfl⟩ := hostStep_next h
  · exact .inl rfl
  · exact resultFits_beginRequest (s := s.passTime.beginRequest rest) rfl hbegin
  · obtain ⟨_, _, -, rfl⟩ := memRead_next hread
    exact .inl rfl
  · exact .inl rfl
  · rw [hphase] at hcount
    exact .inr ⟨_, rfl, hcount.ge⟩
  · rw [hphase] at hcount
    exact resultFits_collect (s := s.passTime) hcount hcollect
  · obtain ⟨_, _, rfl⟩ := memWrite_next hwrite
    exact .inl rfl
  · rw [hphase] at hcount
    exact .inr ⟨_, rfl, hcount⟩
  · rw [hphase] at hcount
    exact .inr ⟨_, rfl, one_le_two.trans hcount.ge⟩

/-- What a step returns fits the transactions performed: an evaluation returns nothing, and the host's moves fit. -/
theorem resultFits_step (hinv : Invariant s) (h : step s = .next t) : ResultFits s t := by
  obtain ⟨w, -, heval⟩ | ⟨-, hhost⟩ := step_cases s
  · obtain ⟨o, -, rfl⟩ := exec_next (heval.symm.trans h)
    exact .inl rfl
  · exact resultFits_hostStep hinv (hhost.symm.trans h)

/-- Settles O56: at most two transactions by the invariant after the step, and as many as the result says. -/
theorem sequencesPerformAtMostTwoTransactions : Obligations.SequencesPerformAtMostTwoTransactions := by
  intro s t r hinv hstep hreturned
  have htwo := transactions_le_two (stepKeepsTheInvariant s t hinv hstep)
  have hfits : countFitsResult t.transactions.length r := by
    obtain hnone | ⟨r', hr', hfits⟩ := resultFits_step hinv hstep
    · exact absurd (hnone.symm.trans hreturned) (List.cons_ne_self r s.returned).symm
    · obtain rfl : r' = r := (List.cons.inj (hr'.symm.trans hreturned)).1
      exact hfits
  refine ⟨htwo, ?_, ?_, ?_, ?_, ?_, ?_, ?_⟩
  · rintro (rfl | rfl) <;> exact hfits
  · rintro b rfl; exact hfits
  · rintro ts rfl; exact hfits
  · rintro rfl; exact hfits
  · rintro rfl; exact hfits
  · rintro rfl; exact hfits
  · rintro e rfl; exact hfits

end Sys2Proof.Machine
end

section
/-! SUPPORT. How every evaluation ends (family 60_exceptions): with status OK, with the error of its operation, or
refused. -/

namespace Sys2Proof.Machine

/-- Every evaluation that completes ends with status OK or with the one error of its operation (R240, R241). -/
theorem outcomeOf_ok_or_error {i : Instr} {inp : Inputs} {o : Outputs} (ho : outcomeOf i inp = some o) :
    readStatus o = .ok 0#2 ∨ (i = .dect ∧ o = .error .decode) ∨ (i = .enct ∧ o = .error .range) ∨
    ((i = .reserved101 ∨ i = .reserved110 ∨ i = .reserved111) ∧ o = .error .illegalOp) := by
  cases i <;> simp only [outcomeOf, Option.some.injEq, Option.ite_none_right_eq_some] at ho
  case dect =>
    split at ho <;> subst ho
    · exact .inl rfl
    · exact .inr (.inl ⟨rfl, rfl⟩)
  case enct =>
    obtain ⟨-, ho⟩ := ho
    split at ho <;> subst ho
    · exact .inl rfl
    · exact .inr (.inr (.inl ⟨rfl, rfl⟩))
  case cfge | cfgd | oscs => exact .inl (ho ▸ rfl)
  case reserved101 | reserved110 | reserved111 => exact .inr (.inr (.inr ⟨by decide, ho.symm⟩))

/-- An evaluation that completes drives its outputs (R240). -/
theorem outcomeOf_ne_undriven {i : Instr} {inp : Inputs} {o : Outputs} (ho : outcomeOf i inp = some o) :
    o ≠ .undriven := by
  rintro rfl
  obtain hok | ⟨-, herr⟩ | ⟨-, herr⟩ | ⟨-, herr⟩ := outcomeOf_ok_or_error ho
  · cases hok
  all_goals cases herr

/-- ENCT's timestamp is the only operand that can be ill formed (R81, R111). -/
theorem wellFormedFor_eq_false_iff {i : Instr} {inp : Inputs} :
    inp.wellFormedFor i = false ↔ i = .enct ∧ tsValid inp.ts = false := by
  cases i <;> simp [Inputs.wellFormedFor, Timestamp.wellFormed]

/-- Settles O29: well-formed inputs have a driven outcome, and ill-formed ones are an invalid timestamp of ENCT. -/
theorem operationsComplete : Obligations.OperationsComplete := by
  refine fun i s => ⟨fun _ hwf => ?_, fun hill => ?_⟩
  · obtain ⟨o, ho⟩ := outcomeOf_wellFormed hwf
    exact ⟨o, outcomeOf_ne_undriven ho, exec_of_outcomeOf_some ho⟩
  · obtain ⟨rfl, hinvalid⟩ := wellFormedFor_eq_false_iff.1 hill
    exact enctRefusesInvalidTimestamp s hinvalid

/-- Settles O34: by `outcomeOf_ok_or_error` the error is that of the operation; it carries nothing but its code. -/
theorem errorsDriveNoDataPort : Obligations.ErrorsDriveNoDataPort := by
  intro i s t e hexec hout
  obtain ⟨o, ho, rfl⟩ := exec_next hexec
  obtain rfl : o = .error e := hout
  obtain hok | ⟨hi, herr⟩ | ⟨hi, herr⟩ | ⟨hi, herr⟩ := outcomeOf_ok_or_error ho
  · cases e <;> cases hok
  · cases herr
    exact ⟨fun _ => ⟨hi, rfl⟩, nofun, nofun, rfl, rfl, rfl, rfl⟩
  · cases herr
    exact ⟨nofun, fun _ => ⟨hi, rfl⟩, nofun, rfl, rfl, rfl, rfl⟩
  · cases herr
    exact ⟨nofun, nofun, fun _ => ⟨hi, rfl⟩, rfl, rfl, rfl, rfl⟩

end Sys2Proof.Machine
end

section
/-! SUPPORT. Reset and the order of the two initialising sequences (family 70_reset_and_hazards): the block's first
evaluation, and why the two encodings commute on the register that both of them write. -/

namespace Sys2Proof.Machine

open Sys2Proof.Safety

/-- Settles O36: the step is the evaluation of the presented word, and `outcomeOf_wellFormed` gives what it drives. -/
theorem firstOperationAfterResetRuns : Obligations.FirstOperationAfterResetRuns := by
  intro w inp hwf
  obtain ⟨o, ho⟩ := outcomeOf_wellFormed hwf
  exact ⟨step_of_op_eq_some rfl, o, outcomeOf_ne_undriven ho, exec_of_outcomeOf_some ho⟩

/-! ### The two encodings commute (R273) -/

/-- Merging packed digits that end below bit `i` into a byte whose bit `i` is kept commutes with putting that bit. -/
theorem merge_putBit {keep : Byte} {i v : Nat} (hi : i < 8) (hkeep : keep.getLsbD i = true)
    (hdigits : (bin2bcd v).toNat < 2 ^ i) (b : Byte) (x : Bool) :
    merge keep (putBit b i x) v = putBit (merge keep b v) i x := by
  have hclear : (bin2bcd v).getLsbD i = false := Nat.testBit_lt_two_pow hdigits
  refine BitVec.eq_of_getLsbD_eq fun k _ => ?_
  rw [getLsbD_putBit hi, merge, merge, BitVec.getLsbD_or, BitVec.getLsbD_and, getLsbD_putBit hi]
  by_cases hk : k = i
  · simp [hk, hkeep, hclear]
  · simp [hk]

/-- ENCT keeps OSC_EN and the control register, and CFGE changes nothing else, so neither undoes the other. -/
theorem encodeTime_encodeConfig {ts : Timestamp} (hvalid : tsValid ts = true) (cfg : ClockConfig) (b : Image) :
    encodeTime ts (encodeConfig cfg b) = encodeConfig cfg (encodeTime ts b) := by
  obtain ⟨-, -, -, -, -, -, hsecond⟩ := valid_ranges hvalid
  have hdigits : (bin2bcd ts.second.toNat).toNat < 2 ^ 7 := by
    rw [bin2bcd_toNat (by omega)]
    omega
  have hseconds : merge keepSec (putBit b.seconds oscEnBit cfg.enabled) ts.second.toNat =
      putBit (merge keepSec b.seconds ts.second.toNat) oscEnBit cfg.enabled :=
    merge_putBit (by decide) (by decide) hdigits _ _
  simp only [encodeTime, encodeConfig, hseconds]

/-! ### Two calm sequences in a row -/

/-- Every calm sequence `c` returns in seven steps, and what it leaves in the bank is `enc` of what it found there. -/
def UpdatesBank (c : BusCall) (enc : Image → Image) : Prop :=
  ∀ s rest, Awaits c rest s → Calm 7 s →
    ∃ t, Returns s 7 rest (.ok .unit) t ∧ t.bank = enc s.bank

theorem updatesBank_configureClock (cfg : ClockConfig) : UpdatesBank (.configureClock cfg) (encodeConfig cfg) := by
  intro s rest hawaits hcalm
  obtain ⟨t, free, hret, hbank, -⟩ := (writesBack_configureClock cfg).returns hawaits hcalm
  have hspan : placeAt 0 (bytesRead (.configureClock cfg) s.bank) free = s.bank := placeAt_eight s.bank free
  rw [hspan] at hbank
  exact ⟨t, hret, hbank.trans (placeAt_eight _ _)⟩

theorem updatesBank_setDatetime {ts : Timestamp} (hvalid : tsValid ts = true) (hmin : 2000 ≤ ts.year)
    (hmax : ts.year ≤ 2099) : UpdatesBank (.setDatetime ts) (encodeTime ts) := by
  intro s rest hawaits hcalm
  have hset := writesBack_setDatetime hvalid ((yearInRange_iff _).2 ⟨hmin, hmax⟩)
  obtain ⟨t, free, hret, hbank, -⟩ := hset.returns hawaits hcalm
  rw [encodeTime_bytesRead, placeAt_seven] at hbank
  exact ⟨t, hret, hbank⟩

/-- Two sequences asked for one after the other update the bank in that order. -/
theorem UpdatesBank.run_pair {c d : BusCall} {f g : Image → Image} (hc : UpdatesBank c f) (hd : UpdatesBank d g)
    {s : State} {rest : List Request} (hawaits : Awaits c (.call (.onBus d) :: rest) s) (hcalm : Calm 14 s) :
    ∃ t, run 14 s = .next t ∧ t.bank = g (f s.bank) ∧ t.phase = .idle ∧ t.pending = rest := by
  obtain ⟨u, hfirst, hubank⟩ := hc s _ hawaits (calm_mono hcalm (by omega))
  obtain ⟨t, hsecond, htbank⟩ := hd u rest hfirst.awaits (calm_after hcalm hfirst.moves)
  exact ⟨t, (hfirst.steps 7).trans (hsecond.steps 0), hubank ▸ htbank, hsecond.phase, hsecond.pending⟩

/-- Settles O49: each order leaves its two encodings of the bank, and the encodings commute. -/
theorem initialisationOrderDoesNotMatter : Obligations.InitialisationOrderDoesNotMatter := by
  intro s ts cfg rest hop hidle hhandle hcalm hvalid hmin hmax
  have hconfig := updatesBank_configureClock cfg
  have htime := updatesBank_setDatetime hvalid hmin hmax
  obtain ⟨t, htrun, htbank, htphase, htpending⟩ := hconfig.run_pair htime
    (s := { s with pending := .call (.onBus (.configureClock cfg)) :: .call (.onBus (.setDatetime ts)) :: rest })
    ⟨hop, hidle, hhandle, rfl⟩ hcalm
  obtain ⟨u, hurun, hubank, huphase, hupending⟩ := htime.run_pair hconfig
    (s := { s with pending := .call (.onBus (.setDatetime ts)) :: .call (.onBus (.configureClock cfg)) :: rest })
    ⟨hop, hidle, hhandle, rfl⟩ hcalm
  have hbank : t.bank = u.bank :=
    htbank.trans ((encodeTime_encodeConfig hvalid cfg s.bank).trans hubank.symm)
  exact ⟨t, u, htrun, hurun, hbank, htphase, huphase, htpending, hupending⟩

end Sys2Proof.Machine
end
